-- ==== Sys2Proof/Word.lean ====
section
/-! DEFINITION. The word types of the Chip8rs CORE (spec/00_scope.md R8, R11: every value is unsigned). -/

namespace Sys2Proof

/-- A byte: a general register, a timer, a memory cell (R8). -/
abbrev Byte := BitVec 8

/-- A 16-bit word: an instruction, the index register, the program counter, a return address (R8, R47). -/
abbrev Word := BitVec 16

/-- A register index, the 4-bit X or Y field: every value names a register (R17, R50). -/
abbrev RegIdx := BitVec 4

/-- A 12-bit address field NNN (R48). -/
abbrev Addr12 := BitVec 12

/-- A logical key code 0x0..0xF (R97). -/
abbrev Key := BitVec 4

/-- VF, the flag register, is general register 15 (R18). -/
abbrev vf : RegIdx := 0xF#4

end Sys2Proof
end

