-- ==== Sys2Proof/Machine/Flags.lean ====
section
/-! DEFINITION. The values VF receives, all seven of R19. -/

namespace Sys2Proof.Machine

/-- A condition as the byte written to VF: 1 or 0. -/
def flagByte (c : Bool) : Byte := if c then 1#8 else 0#8

/-- ADD_REG: the carry out of bit 7 (R84). -/
def carryFlag (a b : Byte) : Byte := flagByte (decide (0xFF < a.toNat + b.toNat))

/-- SUB and SUBN: 1 when `a - b` needs no borrow (R85, R87). -/
def noBorrowFlag (a b : Byte) : Byte := flagByte (decide (b.toNat ≤ a.toNat))

/-- SHR: bit 0 of the value shifted (R86). -/
def lowBitFlag (a : Byte) : Byte := flagByte (a.getLsbD 0)

/-- SHL: bit 7 of the value shifted (R88). -/
def highBitFlag (a : Byte) : Byte := flagByte (a.getLsbD 7)

/-- ADD_I: 1 when the new I is at or above 0x1000 (R75). -/
def indexFlag (sum : Nat) : Byte := flagByte (decide (0x1000 ≤ sum))

/-- DRW: 1 when a set pixel was cleared (R103). -/
def collisionFlag (hit : Bool) : Byte := flagByte hit

end Sys2Proof.Machine
end

