-- ==== Sys2Proof/Config.lean ====
section
/-! DEFINITION. What is fixed for the core's lifetime and what the host chooses freely: the sizes the source fixes
(R8), the configuration (R9, R30), the inputs of a step (R10), and the free values. The values the spec gives to
parameters of R9 stand in Sys2Proof/Machine/Params.lean and Sys2Proof/Decode.lean. -/

namespace Sys2Proof

/-- Where in a step the timer update happens: `P_TIMER_PHASE` (R9, R55), left open by the source. -/
inductive TimerPhase where
  | beforeExecute
  | afterExecute
deriving DecidableEq, Repr, Inhabited

/-- The font: `P_FONT_BASE` and `P_FONT_GLYPHS` (R9, R34). -/
structure Font where
  /-- `P_FONT_BASE`, the address of glyph 0. -/
  base : Addr12
  /-- `P_FONT_GLYPHS`, glyph g at offset 5 * g. -/
  glyphs : List Byte
deriving DecidableEq, Repr, Inhabited

/-- The parameters of R9, immutable for the core's lifetime (R30). `P_IPS` is read by no rule (92 D27). -/
structure Configuration where
  /-- `P_SHIFT_COPY_VY`: a shift first copies VY into VX. -/
  shiftCopyVY : Bool
  /-- `P_JUMP_OFFSET_VX`: JP V0 adds V[nnn[11:8]] instead of V0. -/
  jumpOffsetVX : Bool
  /-- `P_TIMER_PHASE`. -/
  timerPhase : TimerPhase
  /-- `P_STACK_DEPTH`, the capacity of the call stack (R22). -/
  stackDepth : Nat
  /-- `P_STRICT_SKIP_REG`: 5XYn and 9XYn are instructions only when n = 0 (R52). -/
  strictSkipReg : Bool
  /-- `P_FONT_BASE` and `P_FONT_GLYPHS`. -/
  font : Font
deriving DecidableEq, Repr, Inhabited

/-- The three inputs of `Step(key, tick, rnd)` (R10). -/
structure StepInput where
  /-- The latched key, `none` when no key is held (R97). -/
  key : Option Key
  /-- The host's verdict that at least 1/60 s has passed since the last timer update (R112). -/
  tick : Bool
  /-- The random byte (R74). -/
  rnd : Byte
deriving DecidableEq, Repr, Inhabited

/-- The choice of the parameters that neither the source nor the spec gives a value (`configurationAtReset` takes those three
from it). FREE VALUE, no body (92 D11, D24).
DESIGN CHOICE, safe: notes/assumptions/1.md. -/
opaque Config.chosen : Configuration

/-- The inputs of the steps the host has not announced. FREE VALUE, no body: key, tick and rnd are chosen freely at
each step (R59; 93 U3, U4, U6). DESIGN CHOICE, safe: notes/assumptions/2.md. -/
opaque Config.freeInput : Nat → StepInput

/-- Memory has 4096 bytes, addresses 0x000..0xFFF (R8, R35). -/
def Config.memSize : Nat := 4096

/-- The program load address and the reset value of PC (R8). -/
def Config.programBase : Nat := 0x200

/-- The longest image LoadRom takes: 4096 − 0x200 bytes (R117). -/
def Config.romMax : Nat := Config.memSize - Config.programBase

end Sys2Proof
end

