-- ==== Sys2Proof/Syntax.lean ====
section
/-! DEFINITION. The instructions: one constructor per row of spec/opcode_table.json (R51), operands as the fields of
R48 at their widths. -/

namespace Sys2Proof

/-- The 34 instructions of R51; the mnemonic in each docstring is the opcode table's. -/
inductive Instr where
  /-- CLS, 00E0 (R101) -/
  | cls
  /-- RET, 00EE (R65) -/
  | ret
  /-- JP, 1NNN (R63) -/
  | jp (nnn : Addr12)
  /-- CALL, 2NNN (R64) -/
  | call (nnn : Addr12)
  /-- SE_IMM, 3XNN (R67) -/
  | seImm (x : RegIdx) (nn : Byte)
  /-- SNE_IMM, 4XNN (R68) -/
  | sneImm (x : RegIdx) (nn : Byte)
  /-- SE_REG, 5XY0 (R69) -/
  | seReg (x y : RegIdx)
  /-- LD_IMM, 6XNN (R71) -/
  | ldImm (x : RegIdx) (nn : Byte)
  /-- ADD_IMM, 7XNN (R72) -/
  | addImm (x : RegIdx) (nn : Byte)
  /-- LD_REG, 8XY0 (R80) -/
  | ldReg (x y : RegIdx)
  /-- OR, 8XY1 (R81) -/
  | orReg (x y : RegIdx)
  /-- AND, 8XY2 (R82) -/
  | andReg (x y : RegIdx)
  /-- XOR, 8XY3 (R83) -/
  | xorReg (x y : RegIdx)
  /-- ADD_REG, 8XY4 (R84) -/
  | addReg (x y : RegIdx)
  /-- SUB, 8XY5 (R85) -/
  | sub (x y : RegIdx)
  /-- SHR, 8XY6 (R86) -/
  | shr (x y : RegIdx)
  /-- SUBN, 8XY7 (R87) -/
  | subn (x y : RegIdx)
  /-- SHL, 8XYE (R88) -/
  | shl (x y : RegIdx)
  /-- SNE_REG, 9XY0 (R70) -/
  | sneReg (x y : RegIdx)
  /-- LD_I, ANNN (R73) -/
  | ldI (nnn : Addr12)
  /-- JP_OFF, BNNN (R66) -/
  | jpOff (nnn : Addr12)
  /-- RND, CXNN (R74) -/
  | rnd (x : RegIdx) (nn : Byte)
  /-- DRW, DXYN (R103) -/
  | drw (x y : RegIdx) (n : BitVec 4)
  /-- SKP, EX9E (R99) -/
  | skp (x : RegIdx)
  /-- SKNP, EXA1 (R100) -/
  | sknp (x : RegIdx)
  /-- LD_VX_DT, FX07 (R94) -/
  | ldVxDt (x : RegIdx)
  /-- LD_K, FX0A (R98) -/
  | ldK (x : RegIdx)
  /-- LD_DT, FX15 (R95) -/
  | ldDt (x : RegIdx)
  /-- LD_ST, FX18 (R96) -/
  | ldSt (x : RegIdx)
  /-- ADD_I, FX1E (R75) -/
  | addI (x : RegIdx)
  /-- LD_F, FX29 (R76) -/
  | ldF (x : RegIdx)
  /-- LD_B, FX33 (R92) -/
  | ldB (x : RegIdx)
  /-- LD_MEM_STORE, FX55 (R90) -/
  | ldMemStore (x : RegIdx)
  /-- LD_MEM_LOAD, FX65 (R91) -/
  | ldMemLoad (x : RegIdx)
deriving DecidableEq, Repr

end Sys2Proof
end

