-- ==== Sys2Proof/WellFormed.lean ====
section
/-! DEFINITION. What is well formed. An instruction's fields carry their widths in their types and every value of every
field is legal (R17, R50), so its check refuses nothing; the checks that can refuse are those of the parameters
(R9) and of a program image (R117). -/

namespace Sys2Proof

/-- The operand check, constructor by constructor: every register index 0..15, every immediate and every address is
legal (R50: "every value 0..15 is a valid register"). -/
def Instr.wf : Instr → Bool
  | .cls => true
  | .ret => true
  | .jp _ => true
  | .call _ => true
  | .seImm _ _ => true
  | .sneImm _ _ => true
  | .seReg _ _ => true
  | .ldImm _ _ => true
  | .addImm _ _ => true
  | .ldReg _ _ => true
  | .orReg _ _ => true
  | .andReg _ _ => true
  | .xorReg _ _ => true
  | .addReg _ _ => true
  | .sub _ _ => true
  | .shr _ _ => true
  | .subn _ _ => true
  | .shl _ _ => true
  | .sneReg _ _ => true
  | .ldI _ => true
  | .jpOff _ => true
  | .rnd _ _ => true
  | .drw _ _ _ => true
  | .skp _ => true
  | .sknp _ => true
  | .ldVxDt _ => true
  | .ldK _ => true
  | .ldDt _ => true
  | .ldSt _ => true
  | .addI _ => true
  | .ldF _ => true
  | .ldB _ => true
  | .ldMemStore _ => true
  | .ldMemLoad _ => true

/-- `P_STACK_DEPTH` is at least 1 (R9). -/
def stackDepthWf (depth : Nat) : Bool := decide (1 ≤ depth)

/-- The font lies below the program: `P_FONT_BASE + 80 <= 0x200` (R9). -/
def fontBaseWf (base : Nat) : Bool := decide (base + 80 ≤ Config.programBase)

/-- The font is 16 glyphs of 5 bytes (R8, R9). -/
def fontGlyphsWf (glyphs : List Byte) : Bool := decide (glyphs.length = 80)

/-- The constraints R9 puts on a configuration. -/
def Configuration.wf (c : Configuration) : Bool :=
  stackDepthWf c.stackDepth && fontBaseWf c.font.base.toNat && fontGlyphsWf c.font.glyphs

/-- LoadRom's precondition: the image fits above 0x200 (R117). -/
def romWf (image : List Byte) : Bool := decide (image.length ≤ Config.romMax)

end Sys2Proof
end

