-- ==== Sys2Proof/Decode.lean ====
section
/-! DEFINITION. The decoder of R52, total on every word and on every byte list, the encoder written from the same table
(R51), and the opcode table itself as match and mask (spec/opcode_table.json). All patterns but 00E0 are the
spec's general knowledge (R46, 92 D1): notes/assumptions/8.md. -/

namespace Sys2Proof

/-- The value the spec gives `P_STRICT_SKIP_REG`: 5XYn and 9XYn are instructions only when n = 0 (R9, 92 D5):
notes/assumptions/7.md. -/
def strictSkipReg : Bool := true

/-! ## Fields of a word (R48) -/

/-- `op = w[15:12]`, the opcode class. -/
def Word.op (w : Word) : BitVec 4 := w.extractLsb' 12 4

/-- `x = w[11:8]`. -/
def Word.x (w : Word) : RegIdx := w.extractLsb' 8 4

/-- `y = w[7:4]`. -/
def Word.y (w : Word) : RegIdx := w.extractLsb' 4 4

/-- `n = w[3:0]`. -/
def Word.n (w : Word) : BitVec 4 := w.extractLsb' 0 4

/-- `nn = w[7:0]`. -/
def Word.nn (w : Word) : Byte := w.extractLsb' 0 8

/-- `nnn = w[11:0]`. -/
def Word.nnn (w : Word) : Addr12 := w.extractLsb' 0 12

/-- A word from its high and its low byte: `hi ++ lo`, big-endian (R38). -/
def Word.ofBytes (hi lo : Byte) : Word := hi ++ lo

/-- The byte of a word at the lower address (R38). -/
def Word.hi (w : Word) : Byte := w.extractLsb' 8 8

/-- The byte of a word at the higher address (R38). -/
def Word.lo (w : Word) : Byte := w.extractLsb' 0 8

/-! ## Decoding -/

/-- Why bytes are no instruction. -/
inductive Reject where
  /-- Fewer than the two bytes of a word (R47). -/
  | truncated
  /-- The word decodes to `Unrecognized` (R53). -/
  | unrecognized (w : Word)
deriving DecidableEq, Repr

/-- What the decoder answers for a word. -/
inductive Decoded where
  | instr (i : Instr)
  | reject (r : Reject)
deriving DecidableEq, Repr

/-- Class 0 (R52): two words only. -/
def decodeClass0 (w : Word) : Decoded :=
  if w = 0x00E0#16 then .instr .cls
  else if w = 0x00EE#16 then .instr .ret
  else .reject (.unrecognized w)

/-- The ALU group, class 8 (R52): the sub-selector is n. -/
def decodeClass8 (w : Word) : Decoded :=
  match w.n.toNat with
  | 0x0 => .instr (.ldReg w.x w.y)
  | 0x1 => .instr (.orReg w.x w.y)
  | 0x2 => .instr (.andReg w.x w.y)
  | 0x3 => .instr (.xorReg w.x w.y)
  | 0x4 => .instr (.addReg w.x w.y)
  | 0x5 => .instr (.sub w.x w.y)
  | 0x6 => .instr (.shr w.x w.y)
  | 0x7 => .instr (.subn w.x w.y)
  | 0xE => .instr (.shl w.x w.y)
  | _ => .reject (.unrecognized w)

/-- Class E (R52): the selector is nn. -/
def decodeClassE (w : Word) : Decoded :=
  if w.nn = 0x9E#8 then .instr (.skp w.x)
  else if w.nn = 0xA1#8 then .instr (.sknp w.x)
  else .reject (.unrecognized w)

/-- Class F (R52): the selector is nn. -/
def decodeClassF (w : Word) : Decoded :=
  match w.nn.toNat with
  | 0x07 => .instr (.ldVxDt w.x)
  | 0x0A => .instr (.ldK w.x)
  | 0x15 => .instr (.ldDt w.x)
  | 0x18 => .instr (.ldSt w.x)
  | 0x1E => .instr (.addI w.x)
  | 0x29 => .instr (.ldF w.x)
  | 0x33 => .instr (.ldB w.x)
  | 0x55 => .instr (.ldMemStore w.x)
  | 0x65 => .instr (.ldMemLoad w.x)
  | _ => .reject (.unrecognized w)

/-- `decode(w)` of R52, with `P_STRICT_SKIP_REG` as an argument. -/
def decodeWith (strict : Bool) (w : Word) : Decoded :=
  match w.op.toNat with
  | 0x0 => decodeClass0 w
  | 0x1 => .instr (.jp w.nnn)
  | 0x2 => .instr (.call w.nnn)
  | 0x3 => .instr (.seImm w.x w.nn)
  | 0x4 => .instr (.sneImm w.x w.nn)
  | 0x5 => if w.n = 0#4 ∨ strict = false then .instr (.seReg w.x w.y) else .reject (.unrecognized w)
  | 0x6 => .instr (.ldImm w.x w.nn)
  | 0x7 => .instr (.addImm w.x w.nn)
  | 0x8 => decodeClass8 w
  | 0x9 => if w.n = 0#4 ∨ strict = false then .instr (.sneReg w.x w.y) else .reject (.unrecognized w)
  | 0xA => .instr (.ldI w.nnn)
  | 0xB => .instr (.jpOff w.nnn)
  | 0xC => .instr (.rnd w.x w.nn)
  | 0xD => .instr (.drw w.x w.y w.n)
  | 0xE => decodeClassE w
  | 0xF => decodeClassF w
  | _ => .reject (.unrecognized w)   -- op has 4 bits: no word comes here

/-- The decoder (R52) under the spec's value of `P_STRICT_SKIP_REG`: total, a function of the word alone. A core decodes
with its own configuration's value (`executeWord`). -/
def decode (w : Word) : Decoded := decodeWith strictSkipReg w

/-- Decoding from bytes: the two bytes of one word, big-endian (R38, R47), and the bytes after it. -/
def decodeBytes : List Byte → Decoded × List Byte
  | hi :: lo :: rest => (decode (Word.ofBytes hi lo), rest)
  | short => (.reject .truncated, short)

/-- The instruction the decoder reads from a table row's bits `w` (bit 0 the least significant bit of the one word; bits
at and above `nbits` are 0), laid out big-endian. -/
def decodeTableWord (nbits w : Nat) : Option Instr :=
  let word : Word := BitVec.ofNat 16 (w % 2 ^ nbits)
  match (decodeBytes [word.hi, word.lo]).1 with
  | .instr i => some i
  | .reject _ => none

/-! ## Encoding (R49, R51) -/

/-- The word of an instruction. -/
def encode : Instr → Word
  | .cls => 0x00E0#16
  | .ret => 0x00EE#16
  | .jp nnn => 0x1#4 ++ nnn
  | .call nnn => 0x2#4 ++ nnn
  | .seImm x nn => 0x3#4 ++ x ++ nn
  | .sneImm x nn => 0x4#4 ++ x ++ nn
  | .seReg x y => 0x5#4 ++ x ++ y ++ 0x0#4
  | .ldImm x nn => 0x6#4 ++ x ++ nn
  | .addImm x nn => 0x7#4 ++ x ++ nn
  | .ldReg x y => 0x8#4 ++ x ++ y ++ 0x0#4
  | .orReg x y => 0x8#4 ++ x ++ y ++ 0x1#4
  | .andReg x y => 0x8#4 ++ x ++ y ++ 0x2#4
  | .xorReg x y => 0x8#4 ++ x ++ y ++ 0x3#4
  | .addReg x y => 0x8#4 ++ x ++ y ++ 0x4#4
  | .sub x y => 0x8#4 ++ x ++ y ++ 0x5#4
  | .shr x y => 0x8#4 ++ x ++ y ++ 0x6#4
  | .subn x y => 0x8#4 ++ x ++ y ++ 0x7#4
  | .shl x y => 0x8#4 ++ x ++ y ++ 0xE#4
  | .sneReg x y => 0x9#4 ++ x ++ y ++ 0x0#4
  | .ldI nnn => 0xA#4 ++ nnn
  | .jpOff nnn => 0xB#4 ++ nnn
  | .rnd x nn => 0xC#4 ++ x ++ nn
  | .drw x y n => 0xD#4 ++ x ++ y ++ n
  | .skp x => 0xE#4 ++ x ++ 0x9E#8
  | .sknp x => 0xE#4 ++ x ++ 0xA1#8
  | .ldVxDt x => 0xF#4 ++ x ++ 0x07#8
  | .ldK x => 0xF#4 ++ x ++ 0x0A#8
  | .ldDt x => 0xF#4 ++ x ++ 0x15#8
  | .ldSt x => 0xF#4 ++ x ++ 0x18#8
  | .addI x => 0xF#4 ++ x ++ 0x1E#8
  | .ldF x => 0xF#4 ++ x ++ 0x29#8
  | .ldB x => 0xF#4 ++ x ++ 0x33#8
  | .ldMemStore x => 0xF#4 ++ x ++ 0x55#8
  | .ldMemLoad x => 0xF#4 ++ x ++ 0x65#8

/-- The bytes of an instruction in memory order: high byte first (R38). -/
def encodeBytes (i : Instr) : List Byte := [(encode i).hi, (encode i).lo]

/-! ## The opcode table (spec/opcode_table.json) -/

/-- One row: a word belongs to it when `w &&& mask = pattern`. -/
structure TableRow where
  mnemonic : String
  pattern : Word
  mask : Word
deriving DecidableEq, Repr

/-- Does the word belong to the row? -/
def TableRow.covers (row : TableRow) (w : Word) : Bool := w &&& row.mask == row.pattern

/-- Rows of the table, classes 0 to 7. -/
def opcodeTableLow : List TableRow :=
  [⟨"CLS", 0x00E0#16, 0xFFFF#16⟩, ⟨"RET", 0x00EE#16, 0xFFFF#16⟩,
   ⟨"JP", 0x1000#16, 0xF000#16⟩, ⟨"CALL", 0x2000#16, 0xF000#16⟩,
   ⟨"SE_IMM", 0x3000#16, 0xF000#16⟩, ⟨"SNE_IMM", 0x4000#16, 0xF000#16⟩,
   ⟨"SE_REG", 0x5000#16, 0xF00F#16⟩, ⟨"LD_IMM", 0x6000#16, 0xF000#16⟩,
   ⟨"ADD_IMM", 0x7000#16, 0xF000#16⟩]

/-- Rows of the table, class 8. -/
def opcodeTableAlu : List TableRow :=
  [⟨"LD_REG", 0x8000#16, 0xF00F#16⟩, ⟨"OR", 0x8001#16, 0xF00F#16⟩,
   ⟨"AND", 0x8002#16, 0xF00F#16⟩, ⟨"XOR", 0x8003#16, 0xF00F#16⟩,
   ⟨"ADD_REG", 0x8004#16, 0xF00F#16⟩, ⟨"SUB", 0x8005#16, 0xF00F#16⟩,
   ⟨"SHR", 0x8006#16, 0xF00F#16⟩, ⟨"SUBN", 0x8007#16, 0xF00F#16⟩,
   ⟨"SHL", 0x800E#16, 0xF00F#16⟩]

/-- Rows of the table, classes 9 to F. -/
def opcodeTableHigh : List TableRow :=
  [⟨"SNE_REG", 0x9000#16, 0xF00F#16⟩, ⟨"LD_I", 0xA000#16, 0xF000#16⟩,
   ⟨"JP_OFF", 0xB000#16, 0xF000#16⟩, ⟨"RND", 0xC000#16, 0xF000#16⟩,
   ⟨"DRW", 0xD000#16, 0xF000#16⟩, ⟨"SKP", 0xE09E#16, 0xF0FF#16⟩,
   ⟨"SKNP", 0xE0A1#16, 0xF0FF#16⟩, ⟨"LD_VX_DT", 0xF007#16, 0xF0FF#16⟩,
   ⟨"LD_K", 0xF00A#16, 0xF0FF#16⟩, ⟨"LD_DT", 0xF015#16, 0xF0FF#16⟩,
   ⟨"LD_ST", 0xF018#16, 0xF0FF#16⟩, ⟨"ADD_I", 0xF01E#16, 0xF0FF#16⟩,
   ⟨"LD_F", 0xF029#16, 0xF0FF#16⟩, ⟨"LD_B", 0xF033#16, 0xF0FF#16⟩,
   ⟨"LD_MEM_STORE", 0xF055#16, 0xF0FF#16⟩, ⟨"LD_MEM_LOAD", 0xF065#16, 0xF0FF#16⟩]

/-- The 34 rows of spec/opcode_table.json. -/
def opcodeTable : List TableRow := opcodeTableLow ++ opcodeTableAlu ++ opcodeTableHigh

/-- The opcode table's mnemonic of an instruction. -/
def Instr.mnemonic : Instr → String
  | .cls => "CLS"
  | .ret => "RET"
  | .jp _ => "JP"
  | .call _ => "CALL"
  | .seImm _ _ => "SE_IMM"
  | .sneImm _ _ => "SNE_IMM"
  | .seReg _ _ => "SE_REG"
  | .ldImm _ _ => "LD_IMM"
  | .addImm _ _ => "ADD_IMM"
  | .ldReg _ _ => "LD_REG"
  | .orReg _ _ => "OR"
  | .andReg _ _ => "AND"
  | .xorReg _ _ => "XOR"
  | .addReg _ _ => "ADD_REG"
  | .sub _ _ => "SUB"
  | .shr _ _ => "SHR"
  | .subn _ _ => "SUBN"
  | .shl _ _ => "SHL"
  | .sneReg _ _ => "SNE_REG"
  | .ldI _ => "LD_I"
  | .jpOff _ => "JP_OFF"
  | .rnd _ _ => "RND"
  | .drw _ _ _ => "DRW"
  | .skp _ => "SKP"
  | .sknp _ => "SKNP"
  | .ldVxDt _ => "LD_VX_DT"
  | .ldK _ => "LD_K"
  | .ldDt _ => "LD_DT"
  | .ldSt _ => "LD_ST"
  | .addI _ => "ADD_I"
  | .ldF _ => "LD_F"
  | .ldB _ => "LD_B"
  | .ldMemStore _ => "LD_MEM_STORE"
  | .ldMemLoad _ => "LD_MEM_LOAD"

end Sys2Proof
end

