-- ==== Sys2Proof/Machine/Params.lean ====
section
/-! DEFINITION. The values the spec gives to parameters of R9, the configuration of the core after reset, and what
memory holds when a core is created (R33, R34). -/

namespace Sys2Proof.Machine

/-- The value of `P_STACK_DEPTH` (R9, R22, 92 D2): notes/assumptions/6.md. -/
def stackDepth : Nat := 16

/-- The default of `P_FONT_BASE` (R9, R34, 92 D3): notes/assumptions/5.md. -/
def fontBase : Addr12 := 0x050#12

/-- Glyphs 0 to 3 (R34). -/
def glyphs0to3 : List Byte :=
  [0xF0#8, 0x90#8, 0x90#8, 0x90#8, 0xF0#8, 0x20#8, 0x60#8, 0x20#8, 0x20#8, 0x70#8,
   0xF0#8, 0x10#8, 0xF0#8, 0x80#8, 0xF0#8, 0xF0#8, 0x10#8, 0xF0#8, 0x10#8, 0xF0#8]

/-- Glyphs 4 to 7 (R34). -/
def glyphs4to7 : List Byte :=
  [0x90#8, 0x90#8, 0xF0#8, 0x10#8, 0x10#8, 0xF0#8, 0x80#8, 0xF0#8, 0x10#8, 0xF0#8,
   0xF0#8, 0x80#8, 0xF0#8, 0x90#8, 0xF0#8, 0xF0#8, 0x10#8, 0x20#8, 0x40#8, 0x40#8]

/-- Glyphs 8 to B (R34). -/
def glyphs8toB : List Byte :=
  [0xF0#8, 0x90#8, 0xF0#8, 0x90#8, 0xF0#8, 0xF0#8, 0x90#8, 0xF0#8, 0x10#8, 0xF0#8,
   0xF0#8, 0x90#8, 0xF0#8, 0x90#8, 0x90#8, 0xE0#8, 0x90#8, 0xE0#8, 0x90#8, 0xE0#8]

/-- Glyphs C to F (R34). -/
def glyphsCtoF : List Byte :=
  [0xF0#8, 0x80#8, 0x80#8, 0x80#8, 0xF0#8, 0xE0#8, 0x90#8, 0x90#8, 0x90#8, 0xE0#8,
   0xF0#8, 0x80#8, 0xF0#8, 0x80#8, 0xF0#8, 0xF0#8, 0x80#8, 0xF0#8, 0x80#8, 0x80#8]

/-- The default of `P_FONT_GLYPHS`, 16 glyphs of 5 bytes, bit 7 the leftmost pixel (R9, R34, 92 D4):
notes/assumptions/5.md. -/
def fontGlyphs : List Byte := glyphs0to3 ++ glyphs4to7 ++ glyphs8toB ++ glyphsCtoF

/-- The configuration of the core after reset: the spec's value where it gives one, a free value where it gives none. -/
def configurationAtReset : Configuration :=
  { Config.chosen with
    stackDepth := stackDepth, strictSkipReg := strictSkipReg, font := { base := fontBase, glyphs := fontGlyphs } }

/-- What a byte of memory holds when a core with font `f` is created, and so what an address that `mem` does not list reads
as: the font in its region, 0 everywhere else (R33). -/
def initialByte (f : Font) (a : Nat) : Byte :=
  if f.base.toNat ≤ a ∧ a < f.base.toNat + 80 then f.glyphs.getD (a - f.base.toNat) 0#8 else 0#8

end Sys2Proof.Machine
end

