-- ==== Sys2Proof/Machine/State.lean ====
section
/-! DEFINITION. The state of R16, the configuration and the step's inputs it is run with, the reasons a step can stop,
and the state after reset (R33). Plain data. -/

namespace Sys2Proof.Machine

/-- The fatal conditions of R104. Each is raised where the spec raises it, halts the core for ever (R105), and is safe:
the outcome carries no next state. -/
inductive Fault where
  /-- Code 1: an access at `a` > 0xFFF. Raised by the fetch, DRW, LD_B, LD_MEM_STORE and LD_MEM_LOAD (R36, R104). Safe. -/
  | memoryOutOfRange (a : Nat)
  /-- Code 2: RET with an empty call stack (R24, R65). Safe. -/
  | stackUnderflow
  /-- Code 3: CALL with a full call stack (R23, R64, 92 D2). Safe: the software's stack would grow. -/
  | stackOverflow
  /-- Code 4: ADD_I whose sum `s` does not fit 16 bits (R75, 92 D9). Safe: the software may wrap. -/
  | indexOverflow (s : Nat)
deriving DecidableEq, Repr

/-- Reasons the model gives no meaning. No step of this model refuses; the host operations of R117 do. -/
inductive Refusal where
  /-- An instruction not modelled yet. Raised by no arm of `exec`. Safe. -/
  | notModelled (mnemonic : String)
  /-- LoadRom of an image of `size` bytes, more than fit: refused with no state change (R117). Safe. -/
  | romTooLarge (size : Nat)
  /-- LoadRom on a core halted by `f`: not accepted (R105, R117). Safe. -/
  | coreHalted (f : Fault)
deriving DecidableEq, Repr

/-- Memory: the (address, byte) pairs that differ from what the created core holds, addresses strictly rising. -/
abbrev Memory := List Host.Cell

/-- The framebuffer: 32 rows of 64 one-bit pixels; bit c of a row is the pixel of column c (R26). -/
abbrev Framebuffer := Vector (BitVec 64) 32

/-- The machine. The names are the spec's (R12, R16) in lower case; the last four fields are the configuration and the
inputs it is run with (R9, R10). -/
structure State where
  /-- `MEM` (R35): what differs from `initialByte config.font`. Log 4. -/
  mem : Memory
  /-- `V[0..15]` (R17). -/
  v : Vector Byte 16
  /-- `I` (R20). -/
  i : Word
  /-- `PC` (R21). -/
  pc : Word
  /-- `STACK`, top at the end; `SP` is its length (R12, R22). -/
  stack : List Word
  /-- `DT` (R25). -/
  dt : Byte
  /-- `ST` (R25). -/
  st : Byte
  /-- `FB` (R26). -/
  fb : Framebuffer
  /-- `DIRTY` (R27). -/
  dirty : Bool
  /-- `REPORTS`, oldest first: the words reported as `Unrecognized` (R28). -/
  reports : List Word
  /-- `FAULT` (R29). -/
  fault : Option Fault
  /-- The configuration, fixed for the core's lifetime (R9, R30). DESIGN CHOICE, safe: log 1. -/
  config : Configuration
  /-- The current step's inputs: `KEY` (R12, R55), and the model's own `tick` and `rnd`. Log 3. -/
  latch : StepInput
  /-- The model's own: the inputs the host has chosen for the coming steps, oldest first. Log 2. -/
  inputs : List StepInput
  /-- The model's own: how many steps have taken a free input. Log 2. -/
  drawn : Nat
deriving DecidableEq, Repr

/-- The latch before the first step, rewritten by every step (R116). DESIGN CHOICE: log 3. -/
def emptyLatch : StepInput := { key := none, tick := false, rnd := 0#8 }

/-- The core just created with a configuration (R33, R119), with no program loaded. -/
def State.created (c : Configuration) : State where
  mem := []
  v := Vector.replicate 16 0#8
  i := 0#16
  pc := BitVec.ofNat 16 Config.programBase
  stack := []
  dt := 0#8
  st := 0#8
  fb := Vector.replicate 32 0#64
  dirty := false
  reports := []
  fault := none
  config := c
  latch := emptyLatch
  inputs := []
  drawn := 0

/-- The core just created with the parameters the spec gives (R33, R119). -/
def State.reset : State := State.created configurationAtReset

end Sys2Proof.Machine
end

