-- ==== Sys2Proof/Machine/Ops.lean ====
section
/-! DEFINITION. The operations every meaning is written over: memory, registers, the call stack, faults and reports, the
timers, the inputs of a step, the fetch, pixels. -/

namespace Sys2Proof.Machine

/-- What a step or a meaning answers. -/
abbrev Result := Host.Outcome State Fault Refusal

/-! ## Memory (R35, R36) -/

/-- The byte at address `a`: an address not listed holds what the created core holds (R33). -/
def Memory.read (f : Font) : Memory → Nat → Byte
  | [], a => initialByte f a
  | (b, u) :: m, a => if a = b then u else Memory.read f m a

/-- Put byte `u` at address `a`, keeping the canonical form: addresses rising, nothing listed that equals what the created
core holds. -/
def Memory.write (f : Font) : Memory → Nat → Byte → Memory
  | [], a, u => if u = initialByte f a then [] else [(a, u)]
  | (b, w) :: m, a, u =>
    if a < b then (if u = initialByte f a then (b, w) :: m else (a, u) :: (b, w) :: m)
    else if a = b then (if u = initialByte f a then m else (a, u) :: m)
    else (b, w) :: Memory.write f m a u

/-- The canonical form from address `lo` on: addresses at least `lo`, below 4096 and strictly rising, no byte equal to what
the created core holds. -/
def Memory.wfFrom (f : Font) (lo : Nat) : Memory → Bool
  | [] => true
  | (a, u) :: m => decide (lo ≤ a) && decide (a < Config.memSize) && (u != initialByte f a) && Memory.wfFrom f (a + 1) m

/-- The canonical form of memory. -/
def Memory.wf (f : Font) (m : Memory) : Bool := Memory.wfFrom f 0 m

/-- `MEM[a]`. -/
def State.byteAt (s : State) (a : Nat) : Byte := s.mem.read s.config.font a

/-- The state's memory is in its canonical form. -/
def State.memWf (s : State) : Bool := s.mem.wf s.config.font

/-! ## Faults and reports (R105, R106) -/

/-- `raise F(info)` (R13, R105): the step ends at once and the core halts. There is no handler, no saved state and no
return from it (R109); the state after it is unspecified, so none is answered. The FAULT the host then reads is
recorded by `State.halt` (Sys2Proof/Machine/HostOps.lean). Logs 10, 11. -/
def raise (f : Fault) : Result := .fault f

/-- An operation that may raise, as the end of a step. -/
def orRaise : Except Fault State → Result
  | .ok s => .next s
  | .error f => raise f

/-- Go on with the next state, if there is one. -/
def onNext (g : State → State) : Result → Result
  | .next s => .next (g s)
  | .fault f => .fault f
  | .refused r => .refused r

/-- The code the spec gives a fault (R104). -/
def Fault.code : Fault → Nat
  | .memoryOutOfRange _ => 1
  | .stackUnderflow => 2
  | .stackOverflow => 3
  | .indexOverflow _ => 4

/-- `report Unrecognized(w)` (R13, R58): the word is appended and nothing else changes. -/
def State.report (s : State) (w : Word) : State := { s with reports := s.reports ++ [w] }

/-- `MemRead(a, 1)` (R13, R36). -/
def State.memRead (s : State) (a : Nat) : Except Fault Byte :=
  if a < Config.memSize then .ok (s.byteAt a) else .error (.memoryOutOfRange a)

/-- `MemWrite(a, 1, u)` (R13, R36). -/
def State.memWrite (s : State) (a : Nat) (u : Byte) : Except Fault State :=
  if a < Config.memSize then .ok { s with mem := s.mem.write s.config.font a u } else .error (.memoryOutOfRange a)

/-- Bytes stored one at a time at rising addresses; the first address out of range faults (R89). -/
def State.storeBytes : State → Nat → List Byte → Except Fault State
  | s, _, [] => .ok s
  | s, a, u :: us =>
    match s.memWrite a u with
    | .error f => .error f
    | .ok t => State.storeBytes t (a + 1) us

/-! ## Registers -/

/-- `V[r]` (R12, R17). -/
def State.reg (s : State) (r : RegIdx) : Byte := s.v[r.toNat]'r.isLt

/-- `V[r] <- u` (R12, R17). -/
def State.setReg (s : State) (r : RegIdx) (u : Byte) : State := { s with v := s.v.set r.toNat u r.isLt }

/-- A result to `V[x]`, then a flag to VF: with x = F the flag stays (R18, R77). -/
def State.setRegFlag (s : State) (x : RegIdx) (result flag : Byte) : State := (s.setReg x result).setReg vf flag

/-- `I <- w` (R20). -/
def State.setI (s : State) (w : Word) : State := { s with i := w }

/-- `PC <- w` (R21). -/
def State.setPc (s : State) (w : Word) : State := { s with pc := w }

/-- A skip: `PC <- PC + 2` when the condition holds (R62). -/
def State.skipIf (s : State) (c : Bool) : State := { s with pc := if c then s.pc + 2#16 else s.pc }

/-- `DT <- u` (R25). -/
def State.setDt (s : State) (u : Byte) : State := { s with dt := u }

/-- `ST <- u` (R25). -/
def State.setSt (s : State) (u : Byte) : State := { s with st := u }

/-- The registers V[0..x], in order (R90, R91). -/
def regsUpTo (x : RegIdx) : List RegIdx := (List.range (x.toNat + 1)).map (BitVec.ofNat 4)

/-- `V[k] <- MemRead(I + k, 1)` for each k of the list, in order; the first address out of range faults (R89, R91). -/
def State.loadRegs : State → List RegIdx → Except Fault State
  | s, [] => .ok s
  | s, k :: ks =>
    match s.memRead (s.i.toNat + k.toNat) with
    | .error f => .error f
    | .ok u => State.loadRegs (s.setReg k u) ks

/-! ## The call stack (R22) -/

/-- `push(w)` (R23): a full stack raises StackOverflow. -/
def State.push (s : State) (w : Word) : Except Fault State :=
  if s.stack.length < s.config.stackDepth then .ok { s with stack := s.stack ++ [w] } else .error .stackOverflow

/-- `pop()` (R24): an empty stack raises StackUnderflow. -/
def State.pop (s : State) : Except Fault (Word × State) :=
  match s.stack.getLast? with
  | some w => .ok (w, { s with stack := s.stack.dropLast })
  | none => .error .stackUnderflow

/-! ## Timers (R112) -/

/-- One timer under the gate: down by 1, never below 0. -/
def countDown (gate : Bool) (u : Byte) : Byte := if gate then (if u = 0#8 then 0#8 else u - 1#8) else u

/-- `TimerUpdate(tick)` (R112). -/
def State.timerUpdate (s : State) (tick : Bool) : State :=
  { s with dt := countDown tick s.dt, st := countDown tick s.st }

/-- The timer update at one of its two places in the step: it happens where `P_TIMER_PHASE` puts it (R55). -/
def State.timerAt (s : State) (phase : TimerPhase) : State :=
  s.timerUpdate (s.latch.tick && decide (s.config.timerPhase = phase))

/-! ## The inputs of a step (R10, R55) -/

/-- The inputs of the next step: the host's oldest choice, else a free value. Log 2. -/
def State.nextInput (s : State) : StepInput :=
  match s.inputs with
  | inp :: _ => inp
  | [] => Config.freeInput s.drawn

/-- `KEY <- key`, and the other inputs of the step with it (R55); the input is used up. -/
def State.latchInput (s : State) : State :=
  { s with latch := s.nextInput, inputs := s.inputs.tail, drawn := if s.inputs.isEmpty then s.drawn + 1 else s.drawn }

/-- What `Step` does before the fetch (R55): latch the inputs, and the timer update if it comes first. -/
def State.beginStep (s : State) : State := s.latchInput.timerAt .beforeExecute

/-- What `Step` does after the instruction (R55): the timer update if it comes last. -/
def State.endStep (s : State) : State := s.timerAt .afterExecute

/-! ## The fetch (R56) -/

/-- `Fetch()` (R56): the big-endian word at PC, and PC advanced by 2. -/
def State.fetch (s : State) : Except Fault (Word × State) :=
  match s.memRead s.pc.toNat with
  | .error f => .error f
  | .ok hi =>
    match s.memRead (s.pc.toNat + 1) with
    | .error f => .error f
    | .ok lo => .ok (Word.ofBytes hi lo, s.setPc (s.pc + 2#16))

/-- Put a byte into memory, at an address that exists. -/
def placeByte (f : Font) (m : Memory) (a : Nat) (u : Byte) : Memory := if a < Config.memSize then m.write f a u else m

/-- Put the bytes of an image at rising addresses (R117). -/
def placeBytes (f : Font) : Memory → Nat → List Byte → Memory
  | m, _, [] => m
  | m, a, u :: us => placeBytes f (placeByte f m a u) (a + 1) us

/-- A table row's word stored big-endian where the next fetch reads it (the bits at and above `nbits` are 0). Log 13. -/
def State.storeFetchWord (s : State) (nbits w : Nat) : State :=
  let word : Word := BitVec.ofNat 16 (w % 2 ^ nbits)
  { s with mem := placeBytes s.config.font s.mem s.pc.toNat [word.hi, word.lo] }

/-! ## Pixels (R26) -/

/-- `FB[row][col]`; there is no pixel outside the 32 rows and 64 columns. -/
def Framebuffer.pixel (fb : Framebuffer) (row col : Nat) : Bool :=
  if h : row < 32 then (fb[row]'h).getLsbD col else false

/-- `FB[row][col] <- FB[row][col] ^ 1`. -/
def Framebuffer.flip (fb : Framebuffer) (row col : Nat) : Framebuffer :=
  if h : row < 32 then fb.set row ((fb[row]'h) ^^^ BitVec.twoPow 64 col) h else fb

/-- Every pixel 0. -/
def Framebuffer.clear : Framebuffer := Vector.replicate 32 0#64

/-- `FB <- fb; DIRTY <- 1` (R27). -/
def State.show (s : State) (fb : Framebuffer) : State := { s with fb := fb, dirty := true }

end Sys2Proof.Machine
end

