-- ==== Sys2Proof/Machine/Operands.lean ====
section
/-! DEFINITION. The operand forms: where an instruction's values and addresses come from. -/

namespace Sys2Proof.Machine

/-- `zext_16(nnn)` (R50). -/
def addr16 (nnn : Addr12) : Word := nnn.setWidth 16

/-- The register added by JP_OFF: V[nnn[11:8]] when `P_JUMP_OFFSET_VX`, else V0 (R66). -/
def State.offsetReg (s : State) (nnn : Addr12) : RegIdx := if s.config.jumpOffsetVX then nnn.extractLsb' 8 4 else 0#4

/-- `zext_16(nnn) + zext_16(V[r])` (R66): at most 0x10FE, so it never wraps. -/
def State.offsetTarget (s : State) (nnn : Addr12) : Word := addr16 nnn + (s.reg (s.offsetReg nnn)).setWidth 16

/-- The value a shift works on: V[y] when `P_SHIFT_COPY_VY`, else V[x] (R78). -/
def State.shiftSource (s : State) (x y : RegIdx) : Byte := if s.config.shiftCopyVY then s.reg y else s.reg x

/-- Is the latched key the one V[x] names? The compare is on 8 bits (R97, 92 D23): log 18. -/
def State.keyIs (s : State) (x : RegIdx) : Bool :=
  match s.latch.key with
  | some k => k.setWidth 8 == s.reg x
  | none => false

/-- The address of the k-th byte of a transfer: `I + k`, an exact sum (R36). -/
def State.transferAddr (s : State) (k : Nat) : Nat := s.i.toNat + k

/-- The address of a glyph: `P_FONT_BASE + 5 * (u & 0xF)` (R76). -/
def glyphAddr (f : Font) (u : Byte) : Word := f.base.setWidth 16 + 5#16 * (u &&& 0x0F#8).setWidth 16

/-- The digits of a byte: hundreds, tens, ones (R92). -/
def bcdDigits (u : Byte) : List Byte :=
  [BitVec.ofNat 8 (u.toNat / 100), BitVec.ofNat 8 (u.toNat / 10 % 10), BitVec.ofNat 8 (u.toNat % 10)]

/-- The leftmost column of a sprite: `V[x] mod 64` (R102, R103). -/
def State.spriteCol (s : State) (x : RegIdx) : Nat := (s.reg x).toNat % 64

/-- The top row of a sprite: `V[y] mod 32` (R102, R103). -/
def State.spriteRow (s : State) (y : RegIdx) : Nat := (s.reg y).toNat % 32

/-- The first of the `count` addresses from `base` on that is above 0xFFF (R103, 92 D8). -/
def firstOutOfRange (base count : Nat) : Option Nat :=
  ((List.range count).map (base + ·)).find? (fun a => decide (Config.memSize ≤ a))

end Sys2Proof.Machine
end

