-- ==== Sys2Proof/Machine/Alu.lean ====
section
/-! DEFINITION. The ALU group, class 8 (spec/43_alu.md): operands read first, then the result, then the flag (R77). -/

namespace Sys2Proof.Machine

/-- LD VX, VY (R80). -/
def execLdReg (x y : RegIdx) (s : State) : Result := .next (s.setReg x (s.reg y))

/-- OR VX, VY: VF is not cleared (R81, R19). -/
def execOrReg (x y : RegIdx) (s : State) : Result := .next (s.setReg x (s.reg x ||| s.reg y))

/-- AND VX, VY (R82). -/
def execAndReg (x y : RegIdx) (s : State) : Result := .next (s.setReg x (s.reg x &&& s.reg y))

/-- XOR VX, VY (R83). -/
def execXorReg (x y : RegIdx) (s : State) : Result := .next (s.setReg x (s.reg x ^^^ s.reg y))

/-- ADD VX, VY (R84). -/
def execAddReg (x y : RegIdx) (s : State) : Result :=
  .next (s.setRegFlag x (s.reg x + s.reg y) (carryFlag (s.reg x) (s.reg y)))

/-- SUB VX, VY: X − Y (R85). -/
def execSub (x y : RegIdx) (s : State) : Result :=
  .next (s.setRegFlag x (s.reg x - s.reg y) (noBorrowFlag (s.reg x) (s.reg y)))

/-- SHR VX, VY: logical, by one (R78, R86). -/
def execShr (x y : RegIdx) (s : State) : Result :=
  .next (s.setRegFlag x (s.shiftSource x y >>> 1) (lowBitFlag (s.shiftSource x y)))

/-- SUBN VX, VY: Y − X (R87). -/
def execSubn (x y : RegIdx) (s : State) : Result :=
  .next (s.setRegFlag x (s.reg y - s.reg x) (noBorrowFlag (s.reg y) (s.reg x)))

/-- SHL VX, VY: logical, by one (R78, R88). -/
def execShl (x y : RegIdx) (s : State) : Result :=
  .next (s.setRegFlag x (s.shiftSource x y <<< 1) (highBitFlag (s.shiftSource x y)))

end Sys2Proof.Machine
end

