-- ==== Sys2Proof/Machine/Control.lean ====
section
/-! DEFINITION. Control transfer (spec/41_control_flow.md). PC holds the instruction's address plus 2 (R57). -/

namespace Sys2Proof.Machine

/-- JP A: `PC <- zext_16(nnn)` (R63). -/
def execJp (nnn : Addr12) (s : State) : Result := .next (s.setPc (addr16 nnn))

/-- CALL A: push the return address, then jump (R64). -/
def execCall (nnn : Addr12) (s : State) : Result :=
  match s.push s.pc with
  | .ok t => .next (t.setPc (addr16 nnn))
  | .error f => raise f

/-- RET: `PC <- pop()` (R65). -/
def execRet (s : State) : Result :=
  match s.pop with
  | .ok (w, t) => .next (t.setPc w)
  | .error f => raise f

/-- JP V0, A (R66). -/
def execJpOff (nnn : Addr12) (s : State) : Result := .next (s.setPc (s.offsetTarget nnn))

/-- SE VX, K (R67). -/
def execSeImm (x : RegIdx) (nn : Byte) (s : State) : Result := .next (s.skipIf (s.reg x == nn))

/-- SNE VX, K (R68). -/
def execSneImm (x : RegIdx) (nn : Byte) (s : State) : Result := .next (s.skipIf (s.reg x != nn))

/-- SE VX, VY (R69). -/
def execSeReg (x y : RegIdx) (s : State) : Result := .next (s.skipIf (s.reg x == s.reg y))

/-- SNE VX, VY (R70). -/
def execSneReg (x y : RegIdx) (s : State) : Result := .next (s.skipIf (s.reg x != s.reg y))

end Sys2Proof.Machine
end

