-- ==== Sys2Proof/Machine/Display.lean ====
section
/-! DEFINITION. Display instructions: clear and sprite draw (spec/47_display.md). A drawing in progress is the pair of the
framebuffer so far and whether a set pixel was cleared so far. -/

namespace Sys2Proof.Machine

/-- CLS (R101). -/
def execCls (s : State) : Result := .next (s.show Framebuffer.clear)

/-- One bit of a sprite row: bit 7 − c of the byte, at column (cx + c) mod 64 (R103). -/
def drawBit (row cx : Nat) (b : Byte) (acc : Framebuffer × Bool) (c : Nat) : Framebuffer × Bool :=
  if b.getLsbD (7 - c) then
    (acc.1.flip row ((cx + c) % 64), acc.2 || acc.1.pixel row ((cx + c) % 64))
  else acc

/-- One row of a sprite, leftmost bit first (R102, R103). -/
def drawRow (row cx : Nat) (b : Byte) (acc : Framebuffer × Bool) : Framebuffer × Bool :=
  (List.range 8).foldl (drawBit row cx b) acc

/-- The rows `rs` of a sprite whose row 0 is the byte at `base`, stopping at the bottom of the screen (R102, R103). -/
def drawRows (byte : Nat → Byte) (base cx cy : Nat) : List Nat → Framebuffer × Bool → Framebuffer × Bool
  | [], acc => acc
  | r :: rs, acc =>
    if 32 ≤ cy + r then acc
    else drawRows byte base cx cy rs (drawRow (cy + r) cx (byte (base + r)) acc)

/-- The drawing of DRW, from the state before it: positions are read before VF is written (92 D7, log 16). -/
def State.drawing (s : State) (x y : RegIdx) (n : BitVec 4) : Framebuffer × Bool :=
  drawRows s.byteAt (s.transferAddr 0) (s.spriteCol x) (s.spriteRow y) (List.range n.toNat) (s.fb, false)

/-- DRW VX, VY, N (R103): every sprite address is checked first, clipped rows too (92 D8, log 16). -/
def execDrw (x y : RegIdx) (n : BitVec 4) (s : State) : Result :=
  match firstOutOfRange (s.transferAddr 0) n.toNat with
  | some a => raise (.memoryOutOfRange a)
  | none => .next ((s.show (s.drawing x y n).1).setReg vf (collisionFlag (s.drawing x y n).2))

end Sys2Proof.Machine
end

