-- ==== Sys2Proof/Machine/Keypad.lean ====
section
/-! DEFINITION. Keypad instructions (spec/46_keypad.md): KEY is the latch the step has just written (R55, R97). -/

namespace Sys2Proof.Machine

/-- The effect of LD VX, K: the key code, or back to this instruction's own address (R98). -/
def State.awaitKey (s : State) (x : RegIdx) : State :=
  match s.latch.key with
  | some k => s.setReg x (k.setWidth 8)
  | none => s.setPc (s.pc - 2#16)

/-- LD VX, K (R98): a poll, never a stop. -/
def execLdK (x : RegIdx) (s : State) : Result := .next (s.awaitKey x)

/-- SKP VX (R99). -/
def execSkp (x : RegIdx) (s : State) : Result := .next (s.skipIf (s.keyIs x))

/-- SKNP VX (R100): no key latched always skips. -/
def execSknp (x : RegIdx) (s : State) : Result := .next (s.skipIf (!s.keyIs x))

end Sys2Proof.Machine
end

