-- ==== Sys2Proof/Machine/MemoryTransfer.lean ====
section
/-! DEFINITION. Memory transfer (spec/44_memory_transfer.md): bytes at I + k, one at a time in rising k (R89); I is not
changed (92 D10, log 17). -/

namespace Sys2Proof.Machine

/-- LD [I], VX: V[0..x] to memory at I (R90). -/
def execLdMemStore (x : RegIdx) (s : State) : Result :=
  orRaise (s.storeBytes (s.transferAddr 0) ((regsUpTo x).map s.reg))

/-- LD VX, [I]: V[0..x] from memory at I (R91). -/
def execLdMemLoad (x : RegIdx) (s : State) : Result := orRaise (s.loadRegs (regsUpTo x))

/-- LD B, VX: the three digits of V[x] to memory at I (R92). -/
def execLdB (x : RegIdx) (s : State) : Result := orRaise (s.storeBytes (s.transferAddr 0) (bcdDigits (s.reg x)))

end Sys2Proof.Machine
end

