-- ==== Sys2Proof/Machine/RegisterImmediate.lean ====
section
/-! DEFINITION. Register and index-register instructions (spec/42_register_immediate.md). -/

namespace Sys2Proof.Machine

/-- LD VX, K (R71). -/
def execLdImm (x : RegIdx) (nn : Byte) (s : State) : Result := .next (s.setReg x nn)

/-- ADD VX, K: wraps, no flag (R72). -/
def execAddImm (x : RegIdx) (nn : Byte) (s : State) : Result := .next (s.setReg x (s.reg x + nn))

/-- LD I, A (R73). -/
def execLdI (nnn : Addr12) (s : State) : Result := .next (s.setI (addr16 nnn))

/-- RND VX, K: the step's random byte AND the mask (R74). -/
def execRnd (x : RegIdx) (nn : Byte) (s : State) : Result := .next (s.setReg x (s.latch.rnd &&& nn))

/-- ADD I, VX: the exact sum; more than 16 bits is fatal; VF last (R75). Log 15. -/
def execAddI (x : RegIdx) (s : State) : Result :=
  let sum := s.i.toNat + (s.reg x).toNat
  if 0xFFFF < sum then raise (.indexOverflow sum)
  else .next ((s.setI (BitVec.ofNat 16 sum)).setReg vf (indexFlag sum))

/-- LD F, VX: the address of the glyph of V[x]'s low nibble (R76). -/
def execLdF (x : RegIdx) (s : State) : Result := .next (s.setI (glyphAddr s.config.font (s.reg x)))

end Sys2Proof.Machine
end

