-- ==== Sys2Proof/Machine/Timers.lean ====
section
/-! DEFINITION. Timer instructions (spec/45_timers.md). Where in the step the countdown falls is `State.timerAt` (R93). -/

namespace Sys2Proof.Machine

/-- LD VX, DT (R94). -/
def execLdVxDt (x : RegIdx) (s : State) : Result := .next (s.setReg x s.dt)

/-- LD DT, VX (R95). -/
def execLdDt (x : RegIdx) (s : State) : Result := .next (s.setDt (s.reg x))

/-- LD ST, VX (R96). -/
def execLdSt (x : RegIdx) (s : State) : Result := .next (s.setSt (s.reg x))

end Sys2Proof.Machine
end

