-- ==== Sys2Proof/Machine/Cycle.lean ====
section
/-! DEFINITION. The step of R55: latch the inputs, fetch, decode, execute, with the timer update before or after. -/

namespace Sys2Proof.Machine

/-- Decode, under the core's own `P_STRICT_SKIP_REG`, and execute the fetched word (R55, R57); an unrecognized word is reported and passed over (R58). -/
def executeWord (w : Word) (s : State) : Result :=
  match decodeWith s.config.strictSkipReg w with
  | .instr i => exec i s
  | .reject _ => .next (s.report w)

/-- `Step` on a core that is not halted (R55). -/
def runCycle (s : State) : Result :=
  match s.beginStep.fetch with
  | .error f => raise f
  | .ok (w, t) => onNext State.endStep (executeWord w t)

/-- `Step` (R55): "taken only while FAULT = none"; a halted core stays stopped with its fault (R29, R105). Log 10. -/
def stepCore (s : State) : Result :=
  match s.fault with
  | some f => .fault f
  | none => runCycle s

end Sys2Proof.Machine
end

