-- ==== Sys2Proof/Machine/Step.lean ====
section
/-! DEFINITION. The step, and a word placed where the next step fetches it. -/

namespace Sys2Proof.Machine

/-- One step of the core (R55). -/
def step : State → Host.Outcome State Fault Refusal := stepCore

/-- `s` with an instruction's word stored where `step` fetches its next instruction: big-endian at PC (R38, R56). A
byte whose address is above 0xFFF does not exist and is not stored. Log 13. -/
def State.withFetchWord (s : State) (nbits w : Nat) : State := s.storeFetchWord nbits w

end Sys2Proof.Machine
end

