-- ==== Sys2Proof/Machine/HostOps.lean ====
section
/-! DEFINITION. The host's side (spec/60_exceptions.md section 4): LoadRom, ReadDisplay, the bell, the inputs of the coming
steps, the record of a fault, and runs of host operations. They happen only between steps (R43). -/

namespace Sys2Proof.Machine

/-- `LoadRom(bytes)` (R117): only while FAULT = none; an image that does not fit is refused with no state change; otherwise
the bytes from 0x200 on, and PC. Log 21. -/
def loadRom (image : List Byte) (s : State) : Result :=
  match s.fault with
  | some f => .refused (.coreHalted f)
  | none =>
    if romWf image then
      .next (({ s with mem := placeBytes s.config.font s.mem Config.programBase image } : State).setPc
        (BitVec.ofNat 16 Config.programBase))
    else .refused (.romTooLarge image.length)

/-- A pixel as the host reads it: one byte, 0 or 1 (R115). -/
def pixelByte (fb : Framebuffer) (row col : Nat) : Byte := if fb.pixel row col then 1#8 else 0#8

/-- The framebuffer as a flat sequence of 2048 bytes, row-major (R115). -/
def displayBytes (fb : Framebuffer) : List Byte :=
  (List.range 32).flatMap (fun row => (List.range 64).map (pixelByte fb row))

/-- What `ReadDisplay()` returns (R115). -/
structure Display where
  pixels : List Byte
  dirty : Bool
deriving DecidableEq, Repr

/-- `ReadDisplay()` (R115): the pixels and DIRTY, then `DIRTY <- 0`. -/
def readDisplay (s : State) : Display × State :=
  ({ pixels := displayBytes s.fb, dirty := s.dirty }, { s with dirty := false })

/-- The sound output: `ST != 0` (R114). -/
def bell (s : State) : Bool := s.st != 0#8

/-- The host chooses the inputs of a coming step (R10, R118). Log 2. -/
def announce (inp : StepInput) (s : State) : State := { s with inputs := s.inputs ++ [inp] }

/-- The core `s` halted by `f`: FAULT holds it, the configuration is no state and stays the core's own (R16, R30), and
every other part of the state is unspecified, given here as `rest` (R105, 92 D14). Log 11. -/
def State.halt (s : State) (f : Fault) (rest : State) : State := { rest with fault := some f, config := s.config }

/-- `Step` as a host's transaction (R10, R105): the next state, or the halted core. A halted core takes no step. -/
def transact (rest s : State) : State :=
  match s.fault with
  | some _ => s
  | none =>
    match step s with
    | .next t => t
    | .fault f => s.halt f rest
    | .refused _ => s

/-- The host's operations (R118). -/
inductive HostOp where
  /-- A step; `rest` is the unspecified state should it fault. -/
  | step (rest : State)
  | loadRom (image : List Byte)
  | readDisplay
  | announce (inp : StepInput)
deriving DecidableEq, Repr

/-- The state after one host operation; a refused one changes nothing (R117). -/
def hostOp (s : State) : HostOp → State
  | .step rest => transact rest s
  | .loadRom image =>
    match loadRom image s with
    | .next t => t
    | .fault _ => s
    | .refused _ => s
  | .readDisplay => (readDisplay s).2
  | .announce inp => announce inp s

/-- The state after a sequence of host operations. -/
def hostRun (s : State) (ops : List HostOp) : State := ops.foldl hostOp s

end Sys2Proof.Machine
end

