-- ==== Sys2Proof/Safety.lean ====
section
/-! DEFINITION. The terms claims are stated in: the parts of a state and what it means that only some of them changed, the
word the next fetch reads, and the invariant of a run. -/

namespace Sys2Proof.Machine

/-- A part of the state that a claim can say is unchanged. Memory is taken one byte at a time, registers one by one. -/
inductive Part where
  | reg (r : RegIdx)
  | index
  | pc
  | stack
  | delay
  | sound
  | framebuffer
  | dirty
  | reports
  | fault
  | config
  | latch
  | inputs
  | drawn
  | byte (a : Nat)
deriving DecidableEq, Repr

/-- The part is the same in both states; a byte of memory by what reading it gives. -/
def Part.same (s t : State) : Part → Prop
  | .reg r => t.reg r = s.reg r
  | .index => t.i = s.i
  | .pc => t.pc = s.pc
  | .stack => t.stack = s.stack
  | .delay => t.dt = s.dt
  | .sound => t.st = s.st
  | .framebuffer => t.fb = s.fb
  | .dirty => t.dirty = s.dirty
  | .reports => t.reports = s.reports
  | .fault => t.fault = s.fault
  | .config => t.config = s.config
  | .latch => t.latch = s.latch
  | .inputs => t.inputs = s.inputs
  | .drawn => t.drawn = s.drawn
  | .byte a => t.byteAt a = s.byteAt a

/-- From `s` to `t` nothing changed but, possibly, the parts listed. -/
def ChangesOnly (s t : State) (parts : List Part) : Prop := ∀ p, p ∉ parts → p.same s t

/-- The parts of the state that what `Step` does around fetch and instruction may change (R55): the inputs and the
timers. -/
def aroundParts : List Part := [.latch, .inputs, .drawn, .delay, .sound]

/-- The `n` bytes of memory from `a` on. -/
def bytesFrom (a n : Nat) : List Part := (List.range n).map (fun k => .byte (a + k))

/-- The registers V[0..x] as parts. -/
def regsTo (x : RegIdx) : List Part := (regsUpTo x).map .reg

/-- A fetch finds two bytes: PC ≤ 0xFFE (R56). -/
def Fetchable (s : State) : Prop := s.pc.toNat + 1 < Config.memSize

/-- The word at PC, big-endian (R38). -/
def State.wordAtPc (s : State) : Word := Word.ofBytes (s.byteAt s.pc.toNat) (s.byteAt (s.pc.toNat + 1))

/-- What the word at PC decodes to under the core's own `P_STRICT_SKIP_REG` (R52). -/
def State.decoded (s : State) : Decoded := decodeWith s.config.strictSkipReg s.wordAtPc

/-- The state an instruction executes in: inputs latched, a BeforeExecute timer update done, PC past the word (R55, R57). -/
def State.atExecute (s : State) : State := s.beginStep.setPc (s.pc + 2#16)

/-- What holds of every state between steps of a run: memory is canonical, the call stack is bounded (R22) and holds only
addresses just past a fetched CALL, PC is at most 0x10FE, the highest jump target (R61), and the configuration meets
R9's constraints. -/
structure Inv (s : State) : Prop where
  mem_wf : s.memWf = true
  stack_bounded : s.stack.length ≤ s.config.stackDepth
  returns_in_memory : ∀ w ∈ s.stack, 2 ≤ w.toNat ∧ w.toNat ≤ Config.memSize
  pc_bounded : s.pc.toNat ≤ 0x10FE
  config_wf : s.config.wf = true

/-- The sprite bit that DRW puts on the pixel at (row, col): row r of the sprite lies at screen row cy + r, and its bit
7 − c at column (cx + c) mod 64, with cx = V[x] mod 64, cy = V[y] mod 32 and row r the byte at I + r (R102, R103).
Stated without any loop and in no term of the drawing. -/
def SpriteSets (s : State) (x y : RegIdx) (n : BitVec 4) (row col : Nat) : Prop :=
  ∃ r c, r < n.toNat ∧ c < 8 ∧ row < 32 ∧ row = (s.reg y).toNat % 32 + r ∧ col = ((s.reg x).toNat % 64 + c) % 64 ∧
    (s.byteAt (s.i.toNat + r)).getLsbD (7 - c) = true

/-- The registers an instruction names as its destination, by its X field (R19: VF can be one of them). -/
def Instr.destinations : Instr → List RegIdx
  | .ldImm x _ => [x]
  | .addImm x _ => [x]
  | .ldReg x _ => [x]
  | .orReg x _ => [x]
  | .andReg x _ => [x]
  | .xorReg x _ => [x]
  | .addReg x _ => [x]
  | .sub x _ => [x]
  | .shr x _ => [x]
  | .subn x _ => [x]
  | .shl x _ => [x]
  | .rnd x _ => [x]
  | .ldVxDt x => [x]
  | .ldK x => [x]
  | .ldMemLoad x => regsUpTo x
  | _ => []

/-- The condition of the six skip instructions in the state they execute in, `none` for every other instruction
(R67 to R70, R99, R100). -/
def Instr.skipCondition (i : Instr) (s : State) : Option Prop :=
  match i with
  | .seImm x nn => some (s.reg x = nn)
  | .sneImm x nn => some (s.reg x ≠ nn)
  | .seReg x y => some (s.reg x = s.reg y)
  | .sneReg x y => some (s.reg x ≠ s.reg y)
  | .skp x => some (∃ k, s.latch.key = some k ∧ k.toNat = (s.reg x).toNat)
  | .sknp x => some (¬ ∃ k, s.latch.key = some k ∧ k.toNat = (s.reg x).toNat)
  | _ => none

end Sys2Proof.Machine
end

