-- ==== Sys2Proof/Certificates/Slice0/Obligations.lean ====
section
/-! DEFINITION. The statements: what the spec's rules say of the machine, file by file. `ChangesOnly s t parts` (Safety)
is the frame of each: registers, flags, timers, stack, framebuffer, reports, fault, inputs, and every byte of memory as
reading it gives. -/

open Sys2Proof Sys2Proof.Machine

/-- For every well-formed instruction with every operand at every value: decode of its word is the instruction under
either value of P_STRICT_SKIP_REG, decoding its two bytes followed by any bytes gives the instruction and leaves
exactly those bytes, and decodeTableWord of its 16 bits gives it. The patterns are the spec's general knowledge (92
D1, log 8). [30_encoding.md section 4 (R51, R52), 20_memory.md section 2 (R38), 30_encoding.md section 2 (R47)] -/
def Obligations.DecodeOfEncodeIsTheInstruction : Prop :=
  ∀ i : Instr, i.wf = true →
    (∀ strict, decodeWith strict (encode i) = .instr i) ∧
    (∀ rest, decodeBytes (encodeBytes i ++ rest) = (.instr i, rest)) ∧
    decodeTableWord 16 (encode i).toNat = some i

/-- For every 16-bit word: if it decodes to an instruction, encoding that instruction gives the word back, so no two
words are one instruction and no bit is dropped. Rests on P_STRICT_SKIP_REG = true (92 D5, log 7) and on the
patterns of 92 D1 (log 8). [30_encoding.md section 4 (R51, R52)] -/
def Obligations.EncodeOfDecodeIsTheWord : Prop :=
  ∀ (w : Word) (i : Instr), decode w = .instr i → encode i = w

/-- For every 16-bit word: it is unrecognized exactly when no row of the opcode table covers it, and when a row covers
it the decoder answers an instruction with that row's mnemonic. The patterns are the spec's general knowledge (92
D1, log 8), the strict 5XY0 and 9XY0 rows 92 D5 (log 7). [30_encoding.md section 4 (R51), opcode_table.json] -/
def Obligations.DecoderAgreesWithTheOpcodeTable : Prop :=
  ∀ w : Word,
    (decode w = .reject (.unrecognized w) ↔ ∀ row ∈ opcodeTable, row.covers w = false) ∧
    (∀ row ∈ opcodeTable, row.covers w = true → ∃ i, decode w = .instr i ∧ i.mnemonic = row.mnemonic)

/-- For every 16-bit word and either value of P_STRICT_SKIP_REG: it decodes to Unrecognized exactly when it is a class 0
word other than 00E0 and 00EE, a 5XYn or 9XYn with n not 0 when P_STRICT_SKIP_REG is true (92 D5, log 7), an 8XYn
with n one of 8, 9, A, B, C, D, F, an EXnn with nn not 9E or A1, or an FXnn with nn not one of 07, 0A, 15, 18, 1E,
29, 33, 55, 65; otherwise it decodes to an instruction. The class digits and the selectors are 92 D1 (log 8).
[30_encoding.md section 5 (R53), 43_alu.md section 1 (R79)] -/
def Obligations.UnrecognizedWordsAreThoseTheSpecLists : Prop :=
  ∀ (strict : Bool) (w : Word),
    (decodeWith strict w = .reject (.unrecognized w) ↔
      (w.op = 0x0#4 ∧ w ≠ 0x00E0#16 ∧ w ≠ 0x00EE#16) ∨
      ((w.op = 0x5#4 ∨ w.op = 0x9#4) ∧ w.n ≠ 0x0#4 ∧ strict = true) ∨
      (w.op = 0x8#4 ∧ w.n ∈ [0x8#4, 0x9#4, 0xA#4, 0xB#4, 0xC#4, 0xD#4, 0xF#4]) ∨
      (w.op = 0xE#4 ∧ w.nn ≠ 0x9E#8 ∧ w.nn ≠ 0xA1#8) ∨
      (w.op = 0xF#4 ∧ w.nn ∉ [0x07#8, 0x0A#8, 0x15#8, 0x18#8, 0x1E#8, 0x29#8, 0x33#8, 0x55#8, 0x65#8])) ∧
    (decodeWith strict w ≠ .reject (.unrecognized w) → ∃ i, decodeWith strict w = .instr i)

/-- The words 00E0, 1234, 2300, B312, 5120, 7320, F11E, 8565, 812E, F255, FA33, F315, F00A, E19E and D012 decode to the
instructions the spec gives them. All but 00E0 are the spec's general knowledge (92 D1, log 8). [30_encoding.md
section 4 (R51), 95_test_vectors.md section 2] -/
def Obligations.WrittenOutWordsDecode : Prop :=
  decode 0x00E0#16 = .instr .cls ∧
    decode 0x1234#16 = .instr (.jp 0x234#12) ∧
    decode 0x2300#16 = .instr (.call 0x300#12) ∧
    decode 0xB312#16 = .instr (.jpOff 0x312#12) ∧
    decode 0x5120#16 = .instr (.seReg 0x1#4 0x2#4) ∧
    decode 0x7320#16 = .instr (.addImm 0x3#4 0x20#8) ∧
    decode 0xF11E#16 = .instr (.addI 0x1#4) ∧
    decode 0x8565#16 = .instr (.sub 0x5#4 0x6#4) ∧
    decode 0x812E#16 = .instr (.shl 0x1#4 0x2#4) ∧
    decode 0xF255#16 = .instr (.ldMemStore 0x2#4) ∧
    decode 0xFA33#16 = .instr (.ldB 0xA#4) ∧
    decode 0xF315#16 = .instr (.ldDt 0x3#4) ∧
    decode 0xF00A#16 = .instr (.ldK 0x0#4) ∧
    decode 0xE19E#16 = .instr (.skp 0x1#4) ∧
    decode 0xD012#16 = .instr (.drw 0x0#4 0x1#4 0x2#4)

/-- When FAULT is none, two bytes stand at PC and their word decodes to i under the core's own P_STRICT_SKIP_REG, the
step is exec i in the state atExecute, followed by endStep when that answers a next state. atExecute has the step's
inputs latched, PC two higher, a BeforeExecute timer update done, the rest unchanged; endStep does an AfterExecute
timer update and nothing else. Rests on 92 D11 and D12 (logs 1, 2). [40_step.md section 1 (R55, R56, R57),
60_exceptions.md section 3 (R112)] -/
def Obligations.StepRunsTheDecodedInstruction : Prop :=
  ∀ (s : State) (i : Instr), s.fault = none → Fetchable s → s.decoded = .instr i →
    (step s = match exec i s.atExecute with
      | .next t => .next t.endStep
      | .fault f => .fault f
      | .refused r => .refused r) ∧
    s.atExecute.pc = s.pc + 2#16 ∧ s.atExecute.latch = s.nextInput ∧
    s.atExecute.dt.toNat = (if s.nextInput.tick = true ∧ s.config.timerPhase = .beforeExecute then s.dt.toNat - 1 else s.dt.toNat) ∧
    s.atExecute.st.toNat = (if s.nextInput.tick = true ∧ s.config.timerPhase = .beforeExecute then s.st.toNat - 1 else s.st.toNat) ∧
    ChangesOnly s s.atExecute (.pc :: aroundParts) ∧
    (∀ t : State,
      t.endStep.dt.toNat = (if t.latch.tick = true ∧ t.config.timerPhase = .afterExecute then t.dt.toNat - 1 else t.dt.toNat) ∧
      t.endStep.st.toNat = (if t.latch.tick = true ∧ t.config.timerPhase = .afterExecute then t.st.toNat - 1 else t.st.toNat) ∧
      ChangesOnly t t.endStep [.delay, .sound])

/-- In a state whose memory is canonical and whose PC has two bytes of memory, placing an instruction's word at PC makes
the word at PC that word, so that it decodes to the instruction, and changes only those two bytes of memory. The
patterns are 92 D1 (log 8); how a program comes into memory is log 13. [20_memory.md section 2 (R38), 40_step.md
section 1 (R56)] -/
def Obligations.PlacedWordIsTheWordFetched : Prop :=
  ∀ (s : State) (i : Instr), s.memWf = true → Fetchable s →
    (s.withFetchWord 16 (encode i).toNat).wordAtPc = encode i ∧
    (s.withFetchWord 16 (encode i).toNat).decoded = .instr i ∧
    ChangesOnly s (s.withFetchWord 16 (encode i).toNat) (bytesFrom s.pc.toNat 2)

/-- For every word that decodes to Unrecognized, executing it completes, appends the word to REPORTS and changes nothing
else. When FAULT is none and such a word stands at PC, the step completes, with the word appended to REPORTS and PC
two higher, and apart from the step's own inputs and timers nothing else changed. That a report is the word appended
at the end of REPORTS is 92 D15 (log 22). [40_step.md section 1 (R58), 10_state.md section 8 (R28), 60_exceptions.md
section 1 (R106)] -/
def Obligations.UnrecognizedWordIsReportedAndPassedOver : Prop :=
  (∀ (s : State) (w : Word), decodeWith s.config.strictSkipReg w = .reject (.unrecognized w) →
      ∃ t, executeWord w s = .next t ∧ t.reports = s.reports ++ [w] ∧ ChangesOnly s t [.reports]) ∧
    (∀ s : State, s.fault = none → Fetchable s → s.decoded = .reject (.unrecognized s.wordAtPc) →
      ∃ t, step s = .next t ∧ t.reports = s.reports ++ [s.wordAtPc] ∧ t.pc = s.pc + 2#16 ∧
        ChangesOnly s t (.pc :: .reports :: aroundParts))

/-- When FAULT is none: at PC = 0xFFF the step faults with MemoryOutOfRange(0x1000), at a PC above 0xFFF with
MemoryOutOfRange(PC). [40_step.md section 1 (R56), 20_memory.md section 1 (R36)] -/
def Obligations.FetchOutsideMemoryFaults : Prop :=
  ∀ s : State, s.fault = none →
    (s.pc.toNat = 0xFFF → step s = .fault (.memoryOutOfRange 0x1000)) ∧
    (0xFFF < s.pc.toNat → step s = .fault (.memoryOutOfRange s.pc.toNat))

/-- FAULT is none at reset; a step that completes leaves it none; a step that faults with f, taken as a transaction,
leaves FAULT = f whatever the rest of the state is (log 11); from then on no sequence of host operations changes
FAULT; and while FAULT is f the core takes no step. That a halted core's step answers the fault f again, and its
transaction changes nothing, is the model's choice (log 10). [10_state.md section 8 (R29), 60_exceptions.md section
1 (R105)] -/
def Obligations.FaultIsSetOnceAndNeverCleared : Prop :=
  State.reset.fault = none ∧
    (∀ s t, step s = .next t → s.fault = none ∧ t.fault = none) ∧
    (∀ rest s f, step s = .fault f → (transact rest s).fault = some f) ∧
    (∀ s f ops, s.fault = some f → (hostRun s ops).fault = some f) ∧
    (∀ s f, s.fault = some f → step s = .fault f ∧ ∀ rest, transact rest s = s)

/-- If an instruction faults: with MemoryOutOfRange(a) it is DRW, LD_B, LD_MEM_STORE or LD_MEM_LOAD and a is the first
address from I on above 0xFFF; with StackUnderflow it is RET on an empty stack; with StackOverflow it is CALL with
P_STACK_DEPTH entries or more; with IndexOverflow(s) it is ADD_I and s is the sum, above 0xFFFF. No instruction is
refused. StackOverflow and IndexOverflow are the spec's decisions 92 D2 and D9 (logs 6, 15). [60_exceptions.md
section 1 (R104)] -/
def Obligations.OnlyTheSpecsFaultsAreRaised : Prop :=
  ∀ (i : Instr) (s : State),
    (∀ f, exec i s = .fault f →
      match f with
      | .memoryOutOfRange a => a = max s.i.toNat 0x1000 ∧
          ((∃ x y n, i = .drw x y n) ∨ (∃ x, i = .ldB x) ∨ (∃ x, i = .ldMemStore x) ∨ (∃ x, i = .ldMemLoad x))
      | .stackUnderflow => i = .ret ∧ s.stack = []
      | .stackOverflow => s.config.stackDepth ≤ s.stack.length ∧ ∃ a, i = .call a
      | .indexOverflow n => 0xFFFF < n ∧ ∃ x, i = .addI x ∧ n = s.i.toNat + (s.reg x).toNat) ∧
    (∀ r, exec i s ≠ .refused r)

/-- In every step that completes, under either phase: unless the word is LD_DT, DT drops by one when the step's tick is
true and DT is not 0, and is unchanged otherwise; unless the word is LD_ST, the same for ST. The gate as a free
input is 92 D12 (log 2), the phase 92 D11 (log 1). [60_exceptions.md section 3 (R112), 10_state.md section 6 (R25),
40_step.md section 1 (R55)] -/
def Obligations.EveryStepCountsEachTimerAtMostOnce : Prop :=
  ∀ s t : State, step s = .next t →
    ((∀ x, s.decoded ≠ .instr (.ldDt x)) →
      t.dt.toNat = if s.nextInput.tick = true then s.dt.toNat - 1 else s.dt.toNat) ∧
    ((∀ x, s.decoded ≠ .instr (.ldSt x)) →
      t.st.toNat = if s.nextInput.tick = true then s.st.toNat - 1 else s.st.toNat)

/-- A step at LD_VX_DT completes and gives V[x] the counted-down DT under BeforeExecute and the uncounted DT under
AfterExecute; a step at LD_DT or LD_ST completes and the timer ends holding V[x] under BeforeExecute and V[x]
counted down once (when tick is true) under AfterExecute. R93 is the spec's inference; the phase is open (92 D11,
log 1). [45_timers.md section 1 (R93)] -/
def Obligations.TimerPhaseDecidesWhatTimerInstructionsSee : Prop :=
  ∀ (s : State) (x : RegIdx), s.fault = none → Fetchable s →
    (s.decoded = .instr (.ldVxDt x) → ∃ t, step s = .next t ∧
      (t.reg x).toNat = if s.nextInput.tick = true ∧ s.config.timerPhase = .beforeExecute then s.dt.toNat - 1 else s.dt.toNat) ∧
    (s.decoded = .instr (.ldDt x) → ∃ t, step s = .next t ∧
      t.dt.toNat = if s.nextInput.tick = true ∧ s.config.timerPhase = .afterExecute then (s.reg x).toNat - 1 else (s.reg x).toNat) ∧
    (s.decoded = .instr (.ldSt x) → ∃ t, step s = .next t ∧
      t.st.toNat = if s.nextInput.tick = true ∧ s.config.timerPhase = .afterExecute then (s.reg x).toNat - 1 else (s.reg x).toNat)

/-- At reset, and in a core created with any configuration that meets R9's constraints, memory is in its canonical form,
the call stack is within its depth and holds only addresses just past a fetched instruction, PC is at most 0x10FE,
and the configuration meets R9's constraints. [10_state.md section 10 (R33), 00_scope.md section 4 (R9)] -/
def Obligations.InvariantHoldsAtReset : Prop :=
  Inv State.reset ∧ ∀ c : Configuration, c.wf = true → Inv (State.created c)

/-- From every state that meets the invariant, a step that completes gives a state that meets it: memory canonical with
every listed address below 4096, the call stack at most P_STACK_DEPTH deep (92 D2, log 6), every return address
between 2 and 0x1000, PC at most 0x10FE, the configuration within R9's constraints. [20_memory.md section 1 (R35,
R36), 10_state.md section 5 (R22), 41_control_flow.md section 1 (R61)] -/
def Obligations.EveryStepKeepsTheInvariant : Prop :=
  ∀ s t : State, Inv s → step s = .next t → Inv t

/-- From every state that meets the invariant, every sequence of steps, program loads, display reads and input
announcements ends in a state that meets it, if the unspecified states named for faulting steps, with the core's own
configuration, meet it too (log 11). [60_exceptions.md section 4 (R115, R117, R118), 20_memory.md section 4 (R43)] -/
def Obligations.EveryHostRunKeepsTheInvariant : Prop :=
  ∀ (s : State) (ops : List HostOp), Inv s →
    (∀ rest, HostOp.step rest ∈ ops → Inv { rest with config := s.config }) → Inv (hostRun s ops)

/-- At reset every V[r], I, DT and ST are 0, PC is 0x200, every byte of memory in [0x050, 0x0A0) is the byte of R34's
table written out here and every other byte is 0, the stack and the reports are empty, FAULT is none, every pixel
and DIRTY are 0, P_STACK_DEPTH is 16 and P_STRICT_SKIP_REG true. The font's place and bytes are 92 D3 and D4 (log
5), the pixels and DIRTY 92 D13 (log 9), the two parameters 92 D2 and D5 (logs 6, 7). [10_state.md section 10 (R33,
R34), 70_reset_and_hazards.md section 1 (R119), 00_scope.md section 4 (R9)] -/
def Obligations.ResetIsTheCoreJustCreated : Prop :=
  (∀ r, State.reset.reg r = 0#8) ∧ State.reset.i = 0#16 ∧ State.reset.pc = 0x200#16 ∧
    State.reset.dt = 0#8 ∧ State.reset.st = 0#8 ∧
    (∀ a, State.reset.byteAt a = if 0x050 ≤ a ∧ a < 0x0A0 then
        ([0xF0#8, 0x90#8, 0x90#8, 0x90#8, 0xF0#8] ++ [0x20#8, 0x60#8, 0x20#8, 0x20#8, 0x70#8] ++
        [0xF0#8, 0x10#8, 0xF0#8, 0x80#8, 0xF0#8] ++ [0xF0#8, 0x10#8, 0xF0#8, 0x10#8, 0xF0#8] ++
        [0x90#8, 0x90#8, 0xF0#8, 0x10#8, 0x10#8] ++ [0xF0#8, 0x80#8, 0xF0#8, 0x10#8, 0xF0#8] ++
        [0xF0#8, 0x80#8, 0xF0#8, 0x90#8, 0xF0#8] ++ [0xF0#8, 0x10#8, 0x20#8, 0x40#8, 0x40#8] ++
        [0xF0#8, 0x90#8, 0xF0#8, 0x90#8, 0xF0#8] ++ [0xF0#8, 0x90#8, 0xF0#8, 0x10#8, 0xF0#8] ++
        [0xF0#8, 0x90#8, 0xF0#8, 0x90#8, 0x90#8] ++ [0xE0#8, 0x90#8, 0xE0#8, 0x90#8, 0xE0#8] ++
        [0xF0#8, 0x80#8, 0x80#8, 0x80#8, 0xF0#8] ++ [0xE0#8, 0x90#8, 0x90#8, 0x90#8, 0xE0#8] ++
        [0xF0#8, 0x80#8, 0xF0#8, 0x80#8, 0xF0#8] ++ [0xF0#8, 0x80#8, 0xF0#8, 0x80#8, 0x80#8]).getD
          (a - 0x050) 0#8 else 0#8) ∧
    State.reset.stack = [] ∧ State.reset.reports = [] ∧ State.reset.fault = none ∧
    (∀ row col, State.reset.fb.pixel row col = false) ∧ State.reset.dirty = false ∧
    State.reset.config.stackDepth = 16 ∧ State.reset.config.strictSkipReg = true

/-- In every step that completes, the call stack is unchanged, or the word is CALL and the address of the CALL plus 2
was appended, or the word is RET and its last entry, now PC, was removed. Its depth is 92 D2 (log 6). [10_state.md
section 5 (R22, R23, R24)] -/
def Obligations.OnlyCallPushesAndOnlyRetPops : Prop :=
  ∀ s t : State, step s = .next t →
    t.stack = s.stack ∨
    (∃ a, s.decoded = .instr (.call a) ∧ t.stack = s.stack ++ [s.pc + 2#16]) ∨
    (s.decoded = .instr .ret ∧ s.stack = t.stack ++ [t.pc])

/-- In every step that completes, if the word is neither CLS nor DRW the framebuffer and DIRTY are unchanged, and if it
is one of them DIRTY is 1 afterwards. [10_state.md section 7 (R26, R27)] -/
def Obligations.OnlyClsAndDrwWriteTheFramebuffer : Prop :=
  ∀ s t : State, step s = .next t →
    ((s.decoded ≠ .instr .cls ∧ ∀ x y n, s.decoded ≠ .instr (.drw x y n)) →
      t.fb = s.fb ∧ t.dirty = s.dirty) ∧
    ((s.decoded = .instr .cls ∨ ∃ x y n, s.decoded = .instr (.drw x y n)) → t.dirty = true)

/-- In every step that completes, every byte of memory is unchanged unless the word is LD_B and its address is one of
the three from I on, or LD_MEM_STORE of X and its address is one of the X + 1 from I on. [20_memory.md sections 1
and 4 (R35, R45), 44_memory_transfer.md (R90, R92)] -/
def Obligations.OnlyStoresWriteMemory : Prop :=
  ∀ s t : State, step s = .next t → ∀ a,
    t.byteAt a = s.byteAt a ∨
    (∃ x, s.decoded = .instr (.ldB x) ∧ Part.byte a ∈ bytesFrom s.i.toNat 3) ∨
    (∃ x, s.decoded = .instr (.ldMemStore x) ∧ Part.byte a ∈ bytesFrom s.i.toNat (x.toNat + 1))

/-- In every step that completes whose word is none of LD_I, ADD_I and LD_F, I is unchanged; in particular by
LD_MEM_STORE, LD_MEM_LOAD and LD_B (the spec's decision 92 D10, log 17). [10_state.md section 3 (R20)] -/
def Obligations.IndexIsWrittenByThreeInstructions : Prop :=
  ∀ s t : State, step s = .next t →
    (∀ a, s.decoded ≠ .instr (.ldI a)) → (∀ x, s.decoded ≠ .instr (.addI x)) →
    (∀ x, s.decoded ≠ .instr (.ldF x)) → t.i = s.i

/-- Whenever an instruction completes: ADD_REG, SUB, SUBN, SHR, SHL, ADD_I and DRW leave VF holding the flag the spec's
table gives, 0 or 1, even when X = F; every other instruction leaves VF unchanged unless VF is a destination
register it names. R19 is the spec's inference; the flag being written last is 92 D6 (log 16). [10_state.md section
2 (R18, R19)] -/
def Obligations.FlagIsASideEffectOfSevenInstructions : Prop :=
  ∀ (i : Instr) (s t : State), exec i s = .next t →
    match i with
    | .addReg x y => t.reg vf = if 0xFF < (s.reg x).toNat + (s.reg y).toNat then 1#8 else 0#8
    | .sub x y => t.reg vf = if (s.reg y).toNat ≤ (s.reg x).toNat then 1#8 else 0#8
    | .subn x y => t.reg vf = if (s.reg x).toNat ≤ (s.reg y).toNat then 1#8 else 0#8
    | .shr x y => t.reg vf = BitVec.ofNat 8 ((if s.config.shiftCopyVY then s.reg y else s.reg x).toNat % 2)
    | .shl x y => t.reg vf = BitVec.ofNat 8 ((if s.config.shiftCopyVY then s.reg y else s.reg x).toNat / 128)
    | .addI _ => t.reg vf = if 0x1000 ≤ t.i.toNat then 1#8 else 0#8
    | .drw _ _ _ =>
        (t.reg vf = 1#8 ∨ t.reg vf = 0#8) ∧
        (t.reg vf = 1#8 ↔ ∃ row col, row < 32 ∧ col < 64 ∧ s.fb.pixel row col = true ∧ t.fb.pixel row col = false)
    | j => vf ∉ Instr.destinations j → t.reg vf = s.reg vf

/-- REPORTS is empty at reset; a step that completes appends the fetched word when it decodes to no instruction and
otherwise leaves REPORTS unchanged; and every instruction, run in two states that differ only in REPORTS, has the
same outcome but for REPORTS, which it leaves as it was. That a report is the word appended at the end of REPORTS is
92 D15 (log 22). [10_state.md section 8 (R28), 40_step.md section 1 (R58)] -/
def Obligations.ReportsOnlyGrowAndAreNotRead : Prop :=
  State.reset.reports = [] ∧
    (∀ s t : State, step s = .next t →
      (∀ i, s.decoded = .instr i → t.reports = s.reports) ∧
      ((∀ i, s.decoded ≠ .instr i) → t.reports = s.reports ++ [s.wordAtPc])) ∧
    (∀ (i : Instr) (s : State) (ws : List Word),
      exec i { s with reports := ws } = onNext (fun t => { t with reports := ws }) (exec i s))

/-- A step that completes, a step taken as a transaction (faulting or not, whatever the rest of the state after a fault
is), a program load, a display read, an input announcement, and every sequence of host operations leave the
configuration as it was; carrying it in State is the model's choice (log 1). [10_state.md section 9 (R30),
00_scope.md section 4 (R9)] -/
def Obligations.ConfigurationIsFixedForLife : Prop :=
  (∀ s t : State, step s = .next t → t.config = s.config) ∧
    (∀ rest s : State, (transact rest s).config = s.config) ∧
    (∀ (s t : State) (image : List Byte), loadRom image s = .next t → t.config = s.config) ∧
    (∀ s : State, (readDisplay s).2.config = s.config) ∧
    (∀ (s : State) (inp : StepInput), (announce inp s).config = s.config) ∧
    (∀ (s : State) (ops : List HostOp), (hostRun s ops).config = s.config)

/-- Two states that differ only in the step's random byte give the same outcome, but for that byte, under every
instruction other than RND; the same for the key under every instruction other than LD_K, SKP and SKNP, and for the
timer gate under every instruction. Holding the inputs in State is the model's choice (log 3). [40_step.md section 1
(R57)] -/
def Obligations.InputsAreReadOnlyByTheirInstructions : Prop :=
  ∀ (i : Instr) (s : State),
    (∀ u, (∀ x nn, i ≠ .rnd x nn) →
      exec i { s with latch := { s.latch with rnd := u } } =
        onNext (fun t => { t with latch := { t.latch with rnd := u } }) (exec i s)) ∧
    (∀ k, (∀ x, i ≠ .ldK x) → (∀ x, i ≠ .skp x) → (∀ x, i ≠ .sknp x) →
      exec i { s with latch := { s.latch with key := k } } =
        onNext (fun t => { t with latch := { t.latch with key := k } }) (exec i s)) ∧
    (∀ g, exec i { s with latch := { s.latch with tick := g } } =
        onNext (fun t => { t with latch := { t.latch with tick := g } }) (exec i s))

/-- In every step that completes, the latch ends holding the inputs the step ran with: the oldest announced input when
there is one, which is removed from the queue, and otherwise a free value whose counter goes up by one. The queue
and the counter are the model's own (log 2). [00_scope.md section 4 (R10), 40_step.md section 1 (R55, R59)] -/
def Obligations.StepLatchesTheOldestAnnouncedInput : Prop :=
  ∀ s t : State, step s = .next t →
    (∀ inp more, s.inputs = inp :: more → t.latch = inp ∧ t.inputs = more ∧ t.drawn = s.drawn) ∧
    (s.inputs = [] → t.latch = Config.freeInput s.drawn ∧ t.inputs = [] ∧ t.drawn = s.drawn + 1)

/-- The word 1NNN is JP NNN, and JP NNN completes in every state with PC = NNN zero-extended and nothing else changed.
The class digit is 92 D1 (log 8). [41_control_flow.md section 2 (R63), 30_encoding.md section 4 (R51)] -/
def Obligations.JumpSetsPc : Prop :=
  ∀ (s : State) (nnn : Addr12),
    decode (0x1#4 ++ nnn) = .instr (.jp nnn) ∧
    ∃ t, exec (.jp nnn) s = .next t ∧ t.pc.toNat = nnn.toNat ∧ ChangesOnly s t [.pc]

/-- The word BNNN is JP_OFF NNN, and it completes in every state with PC the exact, unmasked sum of NNN and V0, or of
NNN and the register named by NNN's high nibble when P_JUMP_OFFSET_VX is true; nothing else changes. That the sum is
not masked is 92 D17 (log 19); the class digit is 92 D1 (log 8). [41_control_flow.md sections 1 and 2 (R61, R66),
30_encoding.md section 4 (R51)] -/
def Obligations.JumpWithOffsetAddsItsRegister : Prop :=
  ∀ (s : State) (nnn : Addr12),
    decode (0xB#4 ++ nnn) = .instr (.jpOff nnn) ∧
    ∃ t, exec (.jpOff nnn) s = .next t ∧
      (s.config.jumpOffsetVX = false → t.pc.toNat = nnn.toNat + (s.reg 0x0#4).toNat) ∧
      (s.config.jumpOffsetVX = true → t.pc.toNat = nnn.toNat + (s.reg (BitVec.ofNat 4 (nnn.toNat / 256))).toNat) ∧
      ChangesOnly s t [.pc]

/-- The word 2NNN is CALL NNN. With fewer than P_STACK_DEPTH entries on the stack it completes: PC (the CALL's address
plus 2) is appended on top, PC is NNN zero-extended, nothing else changes. With P_STACK_DEPTH or more it faults with
StackOverflow, the spec's decision 92 D2, which also gives the depth 16 of the core at reset (log 6). The class
digit is 92 D1 (log 8). [41_control_flow.md section 2 (R64), 10_state.md section 5 (R23)] -/
def Obligations.CallPushesTheReturnAddressAndJumps : Prop :=
  ∀ (s : State) (nnn : Addr12),
    decode (0x2#4 ++ nnn) = .instr (.call nnn) ∧
    (s.stack.length < s.config.stackDepth → ∃ t, exec (.call nnn) s = .next t ∧
      t.stack = s.stack ++ [s.pc] ∧ t.pc.toNat = nnn.toNat ∧ ChangesOnly s t [.stack, .pc]) ∧
    (s.config.stackDepth ≤ s.stack.length → exec (.call nnn) s = .fault .stackOverflow)

/-- The word 00EE is RET. With a stack of some entries and w on top it completes with PC = w, the other entries left in
place, nothing else changed; with an empty stack it faults with StackUnderflow. The encoding is 92 D1 (log 8).
[41_control_flow.md section 2 (R65), 10_state.md section 5 (R24), 30_encoding.md section 4 (R51)] -/
def Obligations.ReturnPopsIntoPc : Prop :=
  decode 0x00EE#16 = .instr .ret ∧
    (∀ (s : State) (ws : List Word) (w : Word), s.stack = ws ++ [w] → ∃ t, exec .ret s = .next t ∧
      t.pc = w ∧ t.stack = ws ∧ ChangesOnly s t [.stack, .pc]) ∧
    (∀ s : State, s.stack = [] → exec .ret s = .fault .stackUnderflow)

/-- The words 3XNN and 4XNN are SE_IMM and SNE_IMM; both complete in every state; SE_IMM adds 2 to PC exactly when V[x]
= NN and SNE_IMM exactly when V[x] is not NN; nothing else changes. The class digits are 92 D1 (log 8).
[41_control_flow.md section 2 (R67, R68), 30_encoding.md section 4 (R51)] -/
def Obligations.SkipsOnAnImmediate : Prop :=
  ∀ (s : State) (x : RegIdx) (nn : Byte),
    decode (0x3#4 ++ x ++ nn) = .instr (.seImm x nn) ∧ decode (0x4#4 ++ x ++ nn) = .instr (.sneImm x nn) ∧
    (∃ t, exec (.seImm x nn) s = .next t ∧ (s.reg x = nn → t.pc = s.pc + 2#16) ∧ (s.reg x ≠ nn → t.pc = s.pc) ∧
      ChangesOnly s t [.pc]) ∧
    (∃ t, exec (.sneImm x nn) s = .next t ∧ (s.reg x ≠ nn → t.pc = s.pc + 2#16) ∧ (s.reg x = nn → t.pc = s.pc) ∧
      ChangesOnly s t [.pc])

/-- The words 5XY0 and 9XY0 are SE_REG and SNE_REG, and with n not 0 they are these instructions too when
P_STRICT_SKIP_REG is false, and unrecognized when it is true, the spec's value (92 D5, log 7). Both complete in
every state; SE_REG adds 2 to PC exactly when V[x] = V[y] and SNE_REG exactly when they differ; nothing else
changes. The class digits are 92 D1 (log 8). [41_control_flow.md section 2 (R69, R70), 30_encoding.md section 4
(R52)] -/
def Obligations.SkipsOnARegister : Prop :=
  ∀ (s : State) (x y n : BitVec 4) (strict : Bool),
    decodeWith strict (0x5#4 ++ x ++ y ++ n) =
      (if n = 0x0#4 ∨ strict = false then .instr (.seReg x y) else .reject (.unrecognized (0x5#4 ++ x ++ y ++ n))) ∧
    decodeWith strict (0x9#4 ++ x ++ y ++ n) =
      (if n = 0x0#4 ∨ strict = false then .instr (.sneReg x y) else .reject (.unrecognized (0x9#4 ++ x ++ y ++ n))) ∧
    (∃ t, exec (.seReg x y) s = .next t ∧ (s.reg x = s.reg y → t.pc = s.pc + 2#16) ∧
      (s.reg x ≠ s.reg y → t.pc = s.pc) ∧ ChangesOnly s t [.pc]) ∧
    (∃ t, exec (.sneReg x y) s = .next t ∧ (s.reg x ≠ s.reg y → t.pc = s.pc + 2#16) ∧
      (s.reg x = s.reg y → t.pc = s.pc) ∧ ChangesOnly s t [.pc])

/-- When FAULT is none and one of the six skip instructions stands at PC, the step completes, and PC ends 4 higher when
the instruction's condition holds in the state it executes in and 2 higher when it does not; memory is not read for
it, so whatever the skipped bytes hold nothing else changes but the step's inputs and timers. For SKP and SKNP the
condition compares 8 bits, 92 D23 (log 18). [41_control_flow.md sections 1 and 2 (R62, R67, R68, R69, R70),
46_keypad.md (R97, R99, R100)] -/
def Obligations.SkipMovesTwoWordsOn : Prop :=
  ∀ (s : State) (i : Instr) (c : Prop), s.fault = none → Fetchable s → s.decoded = .instr i →
    Instr.skipCondition i s.atExecute = some c →
    ∃ t, step s = .next t ∧ (c → t.pc = s.pc + 4#16) ∧ (¬ c → t.pc = s.pc + 2#16) ∧
      ChangesOnly s t (.pc :: aroundParts)

/-- The words 6XNN and 7XNN are LD_IMM and ADD_IMM; both complete in every state; LD_IMM gives V[x] = NN, ADD_IMM gives
V[x] = (V[x] + NN) mod 256; nothing else changes, VF included unless x = F. The class digits are 92 D1 (log 8).
[42_register_immediate.md (R71, R72), 30_encoding.md section 4 (R51)] -/
def Obligations.ImmediateLoadAndAdd : Prop :=
  ∀ (s : State) (x : RegIdx) (nn : Byte),
    decode (0x6#4 ++ x ++ nn) = .instr (.ldImm x nn) ∧ decode (0x7#4 ++ x ++ nn) = .instr (.addImm x nn) ∧
    (∃ t, exec (.ldImm x nn) s = .next t ∧ t.reg x = nn ∧ ChangesOnly s t [.reg x]) ∧
    (∃ t, exec (.addImm x nn) s = .next t ∧ (t.reg x).toNat = ((s.reg x).toNat + nn.toNat) % 256 ∧
      ChangesOnly s t [.reg x])

/-- The word ANNN is LD_I NNN, and it completes in every state with I = NNN zero-extended and nothing else changed. The
class digit is 92 D1 (log 8). [42_register_immediate.md (R73), 30_encoding.md section 4 (R51)] -/
def Obligations.LoadIndexSetsTheAddress : Prop :=
  ∀ (s : State) (nnn : Addr12),
    decode (0xA#4 ++ nnn) = .instr (.ldI nnn) ∧
    ∃ t, exec (.ldI nnn) s = .next t ∧ t.i.toNat = nnn.toNat ∧ ChangesOnly s t [.index]

/-- The word CXNN is RND, and it completes in every state with V[x] = the step's random byte AND NN and nothing else
changed, whatever the random byte is (free, 92 D21, log 2). The class digit is 92 D1 (log 8).
[42_register_immediate.md (R74)] -/
def Obligations.RandomByteIsMasked : Prop :=
  ∀ (s : State) (x : RegIdx) (nn : Byte),
    decode (0xC#4 ++ x ++ nn) = .instr (.rnd x nn) ∧
    ∃ t, exec (.rnd x nn) s = .next t ∧ t.reg x = s.latch.rnd &&& nn ∧ ChangesOnly s t [.reg x]

/-- The word FX1E is ADD_I. When I + V[x] is at most 0xFFFF it completes with I that sum, VF = 1 when it is at least
0x1000 and 0 otherwise (also when x = F), nothing else changed. Above 0xFFFF it faults with IndexOverflow of the
sum, the spec's decision 92 D9 (log 15). That VF holds the flag when x = F is 92 D6 (log 16); the encoding is 92 D1
(log 8). [42_register_immediate.md (R75), 10_state.md section 2 (R18)] -/
def Obligations.AddToIndexFlagsTheTwelveBitRange : Prop :=
  ∀ (s : State) (x : RegIdx),
    decode (0xF#4 ++ x ++ 0x1E#8) = .instr (.addI x) ∧
    (s.i.toNat + (s.reg x).toNat ≤ 0xFFFF → ∃ t, exec (.addI x) s = .next t ∧
      t.i.toNat = s.i.toNat + (s.reg x).toNat ∧
      t.reg vf = (if 0x1000 ≤ s.i.toNat + (s.reg x).toNat then 1#8 else 0#8) ∧
      ChangesOnly s t [.index, .reg vf]) ∧
    (0xFFFF < s.i.toNat + (s.reg x).toNat →
      exec (.addI x) s = .fault (.indexOverflow (s.i.toNat + (s.reg x).toNat)))

/-- The word FX29 is LD_F, and it completes in every state with I = P_FONT_BASE + 5 * (V[x] mod 16), nothing else
changed; in the core created with the same configuration the five bytes there are the glyph's rows; and P_FONT_BASE
is 0x050 at reset, so I is then 0x050 + 5 * (V[x] mod 16). The value 0x050 is the spec's default 92 D3 (log 5); the
encoding is 92 D1 (log 8); the rows at reset are written out in ResetIsTheCoreJustCreated. [42_register_immediate.md
(R76), 10_state.md section 10 (R34)] -/
def Obligations.FontAddressIsFiveBytesAGlyph : Prop :=
  ∀ (s : State) (x : RegIdx),
    decode (0xF#4 ++ x ++ 0x29#8) = .instr (.ldF x) ∧
    (∃ t, exec (.ldF x) s = .next t ∧ t.i.toNat = s.config.font.base.toNat + 5 * ((s.reg x).toNat % 16) ∧
      ChangesOnly s t [.index] ∧
      (s.config = State.reset.config → t.i.toNat = 0x050 + 5 * ((s.reg x).toNat % 16)) ∧
      ∀ k < 5, (State.created s.config).byteAt (t.i.toNat + k) =
        s.config.font.glyphs.getD (5 * ((s.reg x).toNat % 16) + k) 0#8)

/-- The words 8XY0 to 8XY3 are LD_REG, OR, AND and XOR; all complete in every state; each bit of V[x] is the bit of
V[y], or the OR, AND or XOR of the bits of V[x] and V[y]; nothing else changes, so VF is not cleared (the spec's
inference in R19 and R81). The encodings are 92 D1 (log 8). [43_alu.md section 2 (R80, R81, R82, R83), 10_state.md
section 2 (R19)] -/
def Obligations.MoveAndBitwiseWriteOnlyTheirRegister : Prop :=
  ∀ (s : State) (x y : RegIdx),
    decode (0x8#4 ++ x ++ y ++ 0x0#4) = .instr (.ldReg x y) ∧ decode (0x8#4 ++ x ++ y ++ 0x1#4) = .instr (.orReg x y) ∧
    decode (0x8#4 ++ x ++ y ++ 0x2#4) = .instr (.andReg x y) ∧ decode (0x8#4 ++ x ++ y ++ 0x3#4) = .instr (.xorReg x y) ∧
    (∃ t, exec (.ldReg x y) s = .next t ∧ t.reg x = s.reg y ∧ ChangesOnly s t [.reg x]) ∧
    (∃ t, exec (.orReg x y) s = .next t ∧ ChangesOnly s t [.reg x] ∧
      ∀ b, (t.reg x).getLsbD b = ((s.reg x).getLsbD b || (s.reg y).getLsbD b)) ∧
    (∃ t, exec (.andReg x y) s = .next t ∧ ChangesOnly s t [.reg x] ∧
      ∀ b, (t.reg x).getLsbD b = ((s.reg x).getLsbD b && (s.reg y).getLsbD b)) ∧
    (∃ t, exec (.xorReg x y) s = .next t ∧ ChangesOnly s t [.reg x] ∧
      ∀ b, (t.reg x).getLsbD b = ((s.reg x).getLsbD b ^^ (s.reg y).getLsbD b))

/-- The word 8XY4 is ADD_REG, and it completes in every state: V[x] = (V[x] + V[y]) mod 256 unless x = F, VF = 1 when
the sum of the old values is above 0xFF and 0 otherwise (also when x = F or y = F), nothing else changed. That VF
holds the flag when x = F is 92 D6 (log 16); the encoding is 92 D1 (log 8). [43_alu.md sections 1 and 2 (R77, R84),
10_state.md section 2 (R18), 30_encoding.md section 4 (R51)] -/
def Obligations.AddSetsTheCarry : Prop :=
  ∀ (s : State) (x y : RegIdx),
    decode (0x8#4 ++ x ++ y ++ 0x4#4) = .instr (.addReg x y) ∧
    ∃ t, exec (.addReg x y) s = .next t ∧
      (x ≠ vf → (t.reg x).toNat = ((s.reg x).toNat + (s.reg y).toNat) % 256) ∧
      t.reg vf = (if 0xFF < (s.reg x).toNat + (s.reg y).toNat then 1#8 else 0#8) ∧
      ChangesOnly s t [.reg x, .reg vf]

/-- The words 8XY5 and 8XY7 are SUB and SUBN; both complete in every state. SUB gives V[x] = (V[x] - V[y]) mod 256 and
VF = 1 exactly when V[x] >= V[y] before it; SUBN gives V[x] = (V[y] - V[x]) mod 256 and VF = 1 exactly when V[y] >=
V[x] before it; with x = F VF holds the flag; nothing else changes. That VF holds the flag when x = F is 92 D6 (log
16); the encodings are 92 D1 (log 8). [43_alu.md sections 1 and 2 (R77, R85, R87), 10_state.md section 2 (R18),
30_encoding.md section 4 (R51)] -/
def Obligations.SubtractionsSetNoBorrow : Prop :=
  ∀ (s : State) (x y : RegIdx),
    decode (0x8#4 ++ x ++ y ++ 0x5#4) = .instr (.sub x y) ∧ decode (0x8#4 ++ x ++ y ++ 0x7#4) = .instr (.subn x y) ∧
    (∃ t, exec (.sub x y) s = .next t ∧
      (x ≠ vf → (t.reg x).toNat = ((s.reg x).toNat + 256 - (s.reg y).toNat) % 256) ∧
      t.reg vf = (if (s.reg y).toNat ≤ (s.reg x).toNat then 1#8 else 0#8) ∧
      ChangesOnly s t [.reg x, .reg vf]) ∧
    (∃ t, exec (.subn x y) s = .next t ∧
      (x ≠ vf → (t.reg x).toNat = ((s.reg y).toNat + 256 - (s.reg x).toNat) % 256) ∧
      t.reg vf = (if (s.reg x).toNat ≤ (s.reg y).toNat then 1#8 else 0#8) ∧
      ChangesOnly s t [.reg x, .reg vf])

/-- The words 8XY6 and 8XYE are SHR and SHL; both complete in every state. The value shifted is V[y] when
P_SHIFT_COPY_VY is true and V[x] otherwise. SHR gives V[x] = half of it and VF its lowest bit; SHL gives V[x] =
twice it mod 256 and VF its highest bit; with x = F VF holds the bit; nothing else changes. That VF holds the flag
when x = F is 92 D6 (log 16); the encodings are 92 D1 (log 8). [43_alu.md sections 1 and 2 (R77, R78, R86, R88),
10_state.md section 2 (R18), 30_encoding.md section 4 (R51)] -/
def Obligations.ShiftsMoveOneBitIntoTheFlag : Prop :=
  ∀ (s : State) (x y : RegIdx) (a : Nat),
    a = (if s.config.shiftCopyVY = true then s.reg y else s.reg x).toNat →
    decode (0x8#4 ++ x ++ y ++ 0x6#4) = .instr (.shr x y) ∧ decode (0x8#4 ++ x ++ y ++ 0xE#4) = .instr (.shl x y) ∧
    (∃ t, exec (.shr x y) s = .next t ∧ (x ≠ vf → (t.reg x).toNat = a / 2) ∧ (t.reg vf).toNat = a % 2 ∧
      ChangesOnly s t [.reg x, .reg vf]) ∧
    (∃ t, exec (.shl x y) s = .next t ∧ (x ≠ vf → (t.reg x).toNat = 2 * a % 256) ∧ (t.reg vf).toNat = a / 128 ∧
      ChangesOnly s t [.reg x, .reg vf])

/-- The word FX55 is LD_MEM_STORE. When I + x is at most 0xFFF it completes; in a canonical memory the byte at I + k is
then V[k] for every k up to x; nothing else changes, I included (92 D10, log 17). Otherwise it faults with
MemoryOutOfRange of the first address above 0xFFF (92 D20, log 27). The encoding is 92 D1 (log 8).
[44_memory_transfer.md (R89, R90)] -/
def Obligations.StoreRegistersCopiesV0ToVX : Prop :=
  ∀ (s : State) (x : RegIdx),
    decode (0xF#4 ++ x ++ 0x55#8) = .instr (.ldMemStore x) ∧
    (s.i.toNat + x.toNat ≤ 0xFFF → ∃ t, exec (.ldMemStore x) s = .next t ∧
      (s.memWf = true → ∀ k : RegIdx, k.toNat ≤ x.toNat → t.byteAt (s.i.toNat + k.toNat) = s.reg k) ∧
      ChangesOnly s t (bytesFrom s.i.toNat (x.toNat + 1))) ∧
    (0xFFF < s.i.toNat + x.toNat → exec (.ldMemStore x) s = .fault (.memoryOutOfRange (max s.i.toNat 0x1000)))

/-- The word FX65 is LD_MEM_LOAD. When I + x is at most 0xFFF it completes with V[k] = the byte at I + k for every k up
to x, VF too when x = F; nothing else changes, I and memory included (92 D10, log 17). Otherwise it faults with
MemoryOutOfRange of the first address above 0xFFF (92 D20, log 27). The encoding is 92 D1 (log 8).
[44_memory_transfer.md (R89, R91)] -/
def Obligations.LoadRegistersCopiesMemoryToV0ToVX : Prop :=
  ∀ (s : State) (x : RegIdx),
    decode (0xF#4 ++ x ++ 0x65#8) = .instr (.ldMemLoad x) ∧
    (s.i.toNat + x.toNat ≤ 0xFFF → ∃ t, exec (.ldMemLoad x) s = .next t ∧
      (∀ k : RegIdx, k.toNat ≤ x.toNat → t.reg k = s.byteAt (s.i.toNat + k.toNat)) ∧
      ChangesOnly s t (regsTo x)) ∧
    (0xFFF < s.i.toNat + x.toNat → exec (.ldMemLoad x) s = .fault (.memoryOutOfRange (max s.i.toNat 0x1000)))

/-- The word FX33 is LD_B. When I + 2 is at most 0xFFF it completes; in a canonical memory the bytes at I, I + 1 and I +
2 are then digits h, d, u with h at most 2, d and u at most 9 and 100 h + 10 d + u = V[x]; nothing else changes, I
included (92 D10, log 17). Otherwise it faults with MemoryOutOfRange of the first address above 0xFFF (92 D20, log
27). The encoding is 92 D1 (log 8). [44_memory_transfer.md (R89, R92)] -/
def Obligations.StoreBcdWritesThreeDigits : Prop :=
  ∀ (s : State) (x : RegIdx),
    decode (0xF#4 ++ x ++ 0x33#8) = .instr (.ldB x) ∧
    (s.i.toNat + 2 ≤ 0xFFF → ∃ t, exec (.ldB x) s = .next t ∧
      (s.memWf = true → ∃ h d u : Nat, h ≤ 2 ∧ d ≤ 9 ∧ u ≤ 9 ∧ 100 * h + 10 * d + u = (s.reg x).toNat ∧
        (t.byteAt s.i.toNat).toNat = h ∧ (t.byteAt (s.i.toNat + 1)).toNat = d ∧
        (t.byteAt (s.i.toNat + 2)).toNat = u) ∧
      ChangesOnly s t (bytesFrom s.i.toNat 3)) ∧
    (0xFFF < s.i.toNat + 2 → exec (.ldB x) s = .fault (.memoryOutOfRange (max s.i.toNat 0x1000)))

/-- The words FX07, FX15 and FX18 are LD_VX_DT, LD_DT and LD_ST; all complete in every state: V[x] = DT, DT = V[x], ST =
V[x], the bell then on exactly when V[x] is not 0; nothing else changes. What the step's countdown adds before or
after is TimerPhaseDecidesWhatTimerInstructionsSee. The encodings are 92 D1 (log 8). [45_timers.md (R94, R95, R96),
60_exceptions.md section 4 (R114), 30_encoding.md section 4 (R51)] -/
def Obligations.TimerInstructionsMoveOneByte : Prop :=
  ∀ (s : State) (x : RegIdx),
    decode (0xF#4 ++ x ++ 0x07#8) = .instr (.ldVxDt x) ∧ decode (0xF#4 ++ x ++ 0x15#8) = .instr (.ldDt x) ∧
    decode (0xF#4 ++ x ++ 0x18#8) = .instr (.ldSt x) ∧
    (∃ t, exec (.ldVxDt x) s = .next t ∧ t.reg x = s.dt ∧ ChangesOnly s t [.reg x]) ∧
    (∃ t, exec (.ldDt x) s = .next t ∧ t.dt = s.reg x ∧ ChangesOnly s t [.delay]) ∧
    (∃ t, exec (.ldSt x) s = .next t ∧ t.st = s.reg x ∧ (bell t = true ↔ s.reg x ≠ 0#8) ∧ ChangesOnly s t [.sound])

/-- The word FX0A is LD_K. With key k latched it completes with V[x] = k and nothing else changed; with none it
completes with PC two lower and nothing else changed; and a step at it with no key leaves PC where it was, with the
timers counting. The encoding is 92 D1 (log 8). [46_keypad.md (R98), 30_encoding.md section 4 (R51)] -/
def Obligations.AwaitKeyTakesTheKeyOrStaysPut : Prop :=
  ∀ (s : State) (x : RegIdx),
    decode (0xF#4 ++ x ++ 0x0A#8) = .instr (.ldK x) ∧
    (∀ k, s.latch.key = some k → ∃ t, exec (.ldK x) s = .next t ∧ (t.reg x).toNat = k.toNat ∧ ChangesOnly s t [.reg x]) ∧
    (s.latch.key = none → ∃ t, exec (.ldK x) s = .next t ∧ t.pc = s.pc - 2#16 ∧ ChangesOnly s t [.pc]) ∧
    (s.fault = none → Fetchable s → s.decoded = .instr (.ldK x) → s.nextInput.key = none →
      ∃ t, step s = .next t ∧ t.pc = s.pc ∧
        t.dt.toNat = (if s.nextInput.tick = true then s.dt.toNat - 1 else s.dt.toNat) ∧
        t.st.toNat = (if s.nextInput.tick = true then s.st.toNat - 1 else s.st.toNat))

/-- When FAULT is none, LD_K stands at PC and the step's key is none, the step completes, PC is unchanged, the word at
PC is unchanged, nothing but the step's inputs and the timers changed, and the timer update ran: each timer dropped
by one, not below 0, when tick was true, and is unchanged otherwise. [R124] -/
def Obligations.WaitingForAKeyChangesOnlyTimersAndInputs : Prop :=
  ∀ (s : State) (x : RegIdx), s.fault = none → Fetchable s → s.decoded = .instr (.ldK x) →
    s.nextInput.key = none →
    ∃ t, step s = .next t ∧ t.pc = s.pc ∧ t.wordAtPc = s.wordAtPc ∧ ChangesOnly s t aroundParts ∧
      t.dt.toNat = (if s.nextInput.tick = true then s.dt.toNat - 1 else s.dt.toNat) ∧
      t.st.toNat = (if s.nextInput.tick = true then s.st.toNat - 1 else s.st.toNat)

/-- The words EX9E and EXA1 are SKP and SKNP; both complete in every state. With key k latched SKP adds 2 to PC exactly
when the whole byte V[x] equals k and SKNP exactly when it does not; with none SKP never skips and SKNP always does;
nothing else changes. The 8-bit compare is the spec's decision 92 D23 (log 18). The encodings are 92 D1 (log 8).
[46_keypad.md (R97, R99, R100)] -/
def Obligations.SkipsOnTheLatchedKey : Prop :=
  ∀ (s : State) (x : RegIdx),
    decode (0xE#4 ++ x ++ 0x9E#8) = .instr (.skp x) ∧ decode (0xE#4 ++ x ++ 0xA1#8) = .instr (.sknp x) ∧
    (∃ t, exec (.skp x) s = .next t ∧ ChangesOnly s t [.pc] ∧
      (∀ k, s.latch.key = some k → t.pc = if k.toNat = (s.reg x).toNat then s.pc + 2#16 else s.pc) ∧
      (s.latch.key = none → t.pc = s.pc)) ∧
    (∃ t, exec (.sknp x) s = .next t ∧ ChangesOnly s t [.pc] ∧
      (∀ k, s.latch.key = some k → t.pc = if k.toNat = (s.reg x).toNat then s.pc else s.pc + 2#16) ∧
      (s.latch.key = none → t.pc = s.pc + 2#16))

/-- The word 00E0 is CLS, and it completes in every state with every pixel 0 and DIRTY 1, whatever they were, and
nothing else changed, VF included. [R101] -/
def Obligations.ClearScreenZeroesEveryPixel : Prop :=
  decode 0x00E0#16 = .instr .cls ∧
    ∀ s : State, ∃ t, exec .cls s = .next t ∧ (∀ row col, t.fb.pixel row col = false) ∧ t.dirty = true ∧
      ChangesOnly s t [.framebuffer, .dirty]

/-- The word DXYN is DRW. When the n sprite bytes from I on exist (or n is 0) it completes: every pixel is toggled
exactly when the sprite, placed at (V[x] mod 64, V[y] mod 32) as read before VF is written (92 D7, log 16), clipped
at the bottom and wrapped at the right edge, puts a 1 bit on it; VF is 1 when some toggled pixel was set and 0
otherwise; DIRTY is 1; nothing else changes. The class digit is 92 D1 (log 8). [47_display.md (R102, R103)] -/
def Obligations.DrawXorsExactlyTheSprite : Prop :=
  ∀ (s : State) (x y : RegIdx) (n : BitVec 4),
    decode (0xD#4 ++ x ++ y ++ n) = .instr (.drw x y n) ∧
    (s.i.toNat + n.toNat ≤ 0x1000 ∨ n = 0x0#4 → ∃ t, exec (.drw x y n) s = .next t ∧
      (∀ row col, row < 32 → col < 64 →
        (SpriteSets s x y n row col → t.fb.pixel row col = !s.fb.pixel row col) ∧
        (¬ SpriteSets s x y n row col → t.fb.pixel row col = s.fb.pixel row col)) ∧
      ((∃ row col, row < 32 ∧ col < 64 ∧ SpriteSets s x y n row col ∧ s.fb.pixel row col = true) → t.reg vf = 1#8) ∧
      ((¬ ∃ row col, row < 32 ∧ col < 64 ∧ SpriteSets s x y n row col ∧ s.fb.pixel row col = true) → t.reg vf = 0#8) ∧
      t.dirty = true ∧ ChangesOnly s t [.framebuffer, .dirty, .reg vf])

/-- When n is not 0 and I + n is above 0x1000, DRW faults with MemoryOutOfRange of the first address above 0xFFF,
wherever the sprite would be drawn. Checking clipped rows too is the spec's decision 92 D8 (log 16). [47_display.md
(R103)] -/
def Obligations.DrawChecksEverySpriteAddress : Prop :=
  ∀ (s : State) (x y : RegIdx) (n : BitVec 4), n ≠ 0x0#4 → 0x1000 < s.i.toNat + n.toNat →
    exec (.drw x y n) s = .fault (.memoryOutOfRange (max s.i.toNat 0x1000))

/-- When the sprite's bytes exist, DRW completes and the same DRW completes in the state after it. When x and y are not
F, every pixel is then as before the first draw, and VF is 1 exactly when the sprite puts a 1 bit on some pixel that
was 0 before the first draw. When x or y is F, the second sprite is placed by the flag, 0 or 1, and a pixel differs
from before the first draw exactly when one of the two sprites, and not the other, puts a 1 bit on it. (R103's
remark that the second draw reports VF = 1 for any 1 bit holds where the first draw set it: log 28. Reading the
position before VF is written is log 16.) [95_test_vectors.md section 1 (W4), 47_display.md (R102, R103)] -/
def Obligations.DrawingTwiceRestoresTheFramebuffer : Prop :=
  ∀ (s : State) (x y : RegIdx) (n : BitVec 4), (s.i.toNat + n.toNat ≤ 0x1000 ∨ n = 0x0#4) →
    ∃ t u, exec (.drw x y n) s = .next t ∧ exec (.drw x y n) t = .next u ∧
      (x ≠ vf → y ≠ vf →
        (∀ row col, row < 32 → col < 64 → u.fb.pixel row col = s.fb.pixel row col) ∧
        (u.reg vf = 1#8 ↔ ∃ row col, row < 32 ∧ col < 64 ∧ SpriteSets s x y n row col ∧ s.fb.pixel row col = false)) ∧
      (x = vf ∨ y = vf →
        (t.reg vf = 0#8 ∨ t.reg vf = 1#8) ∧
        ∀ row col, row < 32 → col < 64 →
          (u.fb.pixel row col ≠ s.fb.pixel row col ↔ ¬ (SpriteSets s x y n row col ↔ SpriteSets t x y n row col)))

/-- ReadDisplay returns 2048 bytes, the one at row * 64 + col being 1 when FB[row][col] is 1 and 0 otherwise, and the
value of DIRTY; afterwards DIRTY is 0 and nothing else changed. [R115] -/
def Obligations.ReadDisplayReturnsThePixelsAndClearsDirty : Prop :=
  ∀ s : State,
    (readDisplay s).1.pixels.length = 2048 ∧
    (∀ row col, row < 32 → col < 64 →
      (readDisplay s).1.pixels[row * 64 + col]? = some (if s.fb.pixel row col = true then 1#8 else 0#8)) ∧
    (readDisplay s).1.dirty = s.dirty ∧ (readDisplay s).2.dirty = false ∧ ChangesOnly s (readDisplay s).2 [.dirty]

/-- While FAULT is none: an image of at most 3584 bytes is taken, PC is 0x200, in a canonical memory the byte at 0x200 +
k is the image's byte k, nothing else changes; a longer image is refused. While FAULT is set LoadRom is refused.
Rests on 92 D22 (log 21). [60_exceptions.md section 4 (R117), 60_exceptions.md section 1 (R105)] -/
def Obligations.LoadRomPlacesTheImageAndResetsPc : Prop :=
  ∀ (s : State) (image : List Byte),
    (s.fault = none → image.length ≤ 3584 → ∃ t, loadRom image s = .next t ∧ t.pc = 0x200#16 ∧
      (s.memWf = true → ∀ k < image.length, t.byteAt (0x200 + k) = image.getD k 0#8) ∧
      ChangesOnly s t (.pc :: bytesFrom 0x200 image.length)) ∧
    (s.fault = none → 3584 < image.length → loadRom image s = .refused (.romTooLarge image.length)) ∧
    (∀ f, s.fault = some f → loadRom image s = .refused (.coreHalted f))

/-- For every configuration that meets R9's constraints: in the core created with it, row k of glyph g is the
configuration's glyph byte 5 g + k and stands at P_FONT_BASE + 5 g + k, below 0x200; every byte outside those 80 is
0; and apart from the configuration and memory below 0x200 nothing differs from the core at reset. That the font is
a parameter is R9 and R34. [10_state.md section 10 (R33, R34), 70_reset_and_hazards.md section 1 (R119), 00_scope.md
section 4 (R9)] -/
def Obligations.CreatedCoreHoldsTheFontItIsGiven : Prop :=
  ∀ c : Configuration, c.wf = true →
    (State.created c).config = c ∧
    (∀ g k, g < 16 → k < 5 → c.font.base.toNat + 5 * g + k < 0x200 ∧
      (State.created c).byteAt (c.font.base.toNat + 5 * g + k) = c.font.glyphs.getD (5 * g + k) 0#8) ∧
    (∀ a, a < c.font.base.toNat ∨ c.font.base.toNat + 80 ≤ a → (State.created c).byteAt a = 0#8) ∧
    ChangesOnly State.reset (State.created c) (.config :: bytesFrom 0 0x200)
end

