-- ==== Sys2Proof/Laws/Decode.lean ====
section
/-! SUPPORT. The fields of a word put together from nibbles, a byte or an address, and a word from its bytes: the decoder
and the encoder are related through these alone. -/

namespace Sys2Proof

theorem toNat_append_eq {n m : Nat} (a : BitVec n) (b : BitVec m) : (a ++ b).toNat = a.toNat * 2 ^ m + b.toNat := by
  rw [BitVec.toNat_append, ← Nat.shiftLeft_add_eq_or_of_lt b.isLt, Nat.shiftLeft_eq]

/-! ## Format FXY: four nibbles -/

section Nibbles
variable (a b c d : BitVec 4)

theorem toNat_nibbles :
    BitVec.toNat (w := 16) (a ++ b ++ c ++ d) = a.toNat * 4096 + b.toNat * 256 + c.toNat * 16 + d.toNat := by
  have h1 := toNat_append_eq (a ++ b ++ c) d
  have h2 := toNat_append_eq (a ++ b) c
  have h3 := toNat_append_eq a b
  exact h1.trans (by omega)

@[simp] theorem Word.op_nibbles : Word.op (a ++ b ++ c ++ d) = a := by
  apply BitVec.eq_of_toNat_eq
  rw [Word.op, BitVec.extractLsb'_toNat, toNat_nibbles, Nat.shiftRight_eq_div_pow]
  omega

@[simp] theorem Word.x_nibbles : Word.x (a ++ b ++ c ++ d) = b := by
  apply BitVec.eq_of_toNat_eq
  rw [Word.x, BitVec.extractLsb'_toNat, toNat_nibbles, Nat.shiftRight_eq_div_pow]
  omega

@[simp] theorem Word.y_nibbles : Word.y (a ++ b ++ c ++ d) = c := by
  apply BitVec.eq_of_toNat_eq
  rw [Word.y, BitVec.extractLsb'_toNat, toNat_nibbles, Nat.shiftRight_eq_div_pow]
  omega

@[simp] theorem Word.n_nibbles : Word.n (a ++ b ++ c ++ d) = d := by
  apply BitVec.eq_of_toNat_eq
  rw [Word.n, BitVec.extractLsb'_toNat, toNat_nibbles, Nat.shiftRight_eq_div_pow]
  omega

end Nibbles

/-! ## Formats FXK and FX: two nibbles and a byte -/

section Byte
variable (a b : BitVec 4) (k : Byte)

theorem toNat_nibbles_byte : BitVec.toNat (w := 16) (a ++ b ++ k) = a.toNat * 4096 + b.toNat * 256 + k.toNat := by
  have h1 := toNat_append_eq (a ++ b) k
  have h2 := toNat_append_eq a b
  exact h1.trans (by omega)

@[simp] theorem Word.op_byte : Word.op (a ++ b ++ k) = a := by
  apply BitVec.eq_of_toNat_eq
  rw [Word.op, BitVec.extractLsb'_toNat, toNat_nibbles_byte, Nat.shiftRight_eq_div_pow]
  omega

@[simp] theorem Word.x_byte : Word.x (a ++ b ++ k) = b := by
  apply BitVec.eq_of_toNat_eq
  rw [Word.x, BitVec.extractLsb'_toNat, toNat_nibbles_byte, Nat.shiftRight_eq_div_pow]
  omega

@[simp] theorem Word.nn_byte : Word.nn (a ++ b ++ k) = k := by
  apply BitVec.eq_of_toNat_eq
  rw [Word.nn, BitVec.extractLsb'_toNat, toNat_nibbles_byte, Nat.shiftRight_eq_div_pow]
  omega

end Byte

/-! ## Format FA: a nibble and an address -/

section Address
variable (a : BitVec 4) (k : Addr12)

theorem toNat_nibble_address : BitVec.toNat (w := 16) (a ++ k) = a.toNat * 4096 + k.toNat := toNat_append_eq a k

@[simp] theorem Word.op_address : Word.op (a ++ k) = a := by
  apply BitVec.eq_of_toNat_eq
  rw [Word.op, BitVec.extractLsb'_toNat, toNat_nibble_address, Nat.shiftRight_eq_div_pow]
  omega

@[simp] theorem Word.nnn_address : Word.nnn (a ++ k) = k := by
  apply BitVec.eq_of_toNat_eq
  rw [Word.nnn, BitVec.extractLsb'_toNat, toNat_nibble_address, Nat.shiftRight_eq_div_pow]
  omega

end Address

/-! ## Bytes -/

@[simp] theorem Word.ofBytes_hi_lo (w : Word) : Word.ofBytes w.hi w.lo = w := by
  apply BitVec.eq_of_toNat_eq
  have h := toNat_append_eq w.hi w.lo
  refine Eq.trans h ?_
  simp only [Word.hi, Word.lo, BitVec.extractLsb'_toNat, Nat.shiftRight_eq_div_pow]
  have := w.isLt
  omega

@[simp] theorem Word.hi_ofBytes (hi lo : Byte) : (Word.ofBytes hi lo).hi = hi := by
  apply BitVec.eq_of_toNat_eq
  have h : (Word.ofBytes hi lo).toNat = _ := toNat_append_eq hi lo
  rw [Word.hi, BitVec.extractLsb'_toNat, h, Nat.shiftRight_eq_div_pow]
  have := hi.isLt
  have := lo.isLt
  omega

@[simp] theorem Word.lo_ofBytes (hi lo : Byte) : (Word.ofBytes hi lo).lo = lo := by
  apply BitVec.eq_of_toNat_eq
  have h : (Word.ofBytes hi lo).toNat = _ := toNat_append_eq hi lo
  rw [Word.lo, BitVec.extractLsb'_toNat, h, Nat.shiftRight_eq_div_pow]
  have := lo.isLt
  omega

/-- A word is its four nibbles (R48). -/
theorem Word.eq_nibbles (w : Word) : w = w.op ++ w.x ++ w.y ++ w.n := by
  apply BitVec.eq_of_toNat_eq
  rw [toNat_nibbles]
  simp only [Word.op, Word.x, Word.y, Word.n, BitVec.extractLsb'_toNat, Nat.shiftRight_eq_div_pow]
  have := w.isLt
  omega

/-- A word is its class, X and its low byte (R48). -/
theorem Word.eq_byte (w : Word) : w = w.op ++ w.x ++ w.nn := by
  apply BitVec.eq_of_toNat_eq
  rw [toNat_nibbles_byte]
  simp only [Word.op, Word.x, Word.nn, BitVec.extractLsb'_toNat, Nat.shiftRight_eq_div_pow]
  have := w.isLt
  omega

/-- A word is its class and its address (R48). -/
theorem Word.eq_address (w : Word) : w = w.op ++ w.nnn := by
  apply BitVec.eq_of_toNat_eq
  rw [toNat_nibble_address]
  simp only [Word.op, Word.nnn, BitVec.extractLsb'_toNat, Nat.shiftRight_eq_div_pow]
  have := w.isLt
  omega

/-- The low byte of a word is its two low nibbles. -/
theorem Word.nn_nibbles_eq (w : Word) : w.nn = w.y ++ w.n := by
  apply BitVec.eq_of_toNat_eq
  rw [toNat_append_eq]
  simp only [Word.nn, Word.y, Word.n, BitVec.extractLsb'_toNat, Nat.shiftRight_eq_div_pow]
  have := w.isLt
  omega

/-! ## The opcode table, nibble by nibble -/

theorem nibbles_inj {a b c d a' b' c' d' : BitVec 4} :
    ((a ++ b ++ c ++ d : Word) = a' ++ b' ++ c' ++ d') ↔ a = a' ∧ b = b' ∧ c = c' ∧ d = d' := by
  constructor
  · intro h
    refine ⟨?_, ?_, ?_, ?_⟩
    · simpa using congrArg Word.op h
    · simpa using congrArg Word.x h
    · simpa using congrArg Word.y h
    · simpa using congrArg Word.n h
  · rintro ⟨rfl, rfl, rfl, rfl⟩; rfl

theorem nibbles_and (a b c d a' b' c' d' : BitVec 4) :
    ((a ++ b ++ c ++ d : Word) &&& (a' ++ b' ++ c' ++ d')) = (a &&& a') ++ (b &&& b') ++ (c &&& c') ++ (d &&& d') := by
  have h : (a ++ b ++ c ++ d) &&& (a' ++ b' ++ c' ++ d') =
      (a &&& a') ++ (b &&& b') ++ (c &&& c') ++ (d &&& d') := by
    rw [BitVec.and_append, BitVec.and_append, BitVec.and_append]
  exact h

/-- A row covers a word when each nibble, masked, is the row's. -/
theorem TableRow.covers_iff (w : Word) (m : String) (p k : Word) :
    (TableRow.mk m p k).covers w = true ↔
      w.op &&& k.op = p.op ∧ w.x &&& k.x = p.x ∧ w.y &&& k.y = p.y ∧ w.n &&& k.n = p.n := by
  rw [TableRow.covers, beq_iff_eq]
  conv_lhs => rw [w.eq_nibbles, k.eq_nibbles, p.eq_nibbles, nibbles_and]
  exact nibbles_inj

end Sys2Proof
end

