-- ==== Sys2Proof/Laws/Memory.lean ====
section
/-! SUPPORT. Memory: what a read gives after a write, and that writes keep the canonical form. -/

namespace Sys2Proof.Machine

variable {f : Font}

theorem Memory.wfFrom_cons {lo a : Nat} {u : Byte} {m : Memory} :
    Memory.wfFrom f lo ((a, u) :: m) = true ↔
      lo ≤ a ∧ a < Config.memSize ∧ u ≠ initialByte f a ∧ Memory.wfFrom f (a + 1) m = true := by
  simp [Memory.wfFrom, and_assoc]

/-- A canonical list from `lo` on is canonical from any lower address on. -/
theorem Memory.wfFrom_mono {lo lo' : Nat} {m : Memory} (hle : lo' ≤ lo) (h : Memory.wfFrom f lo m = true) :
    Memory.wfFrom f lo' m = true := by
  cases m with
  | nil => rfl
  | cons c m =>
    obtain ⟨a, u⟩ := c
    rw [Memory.wfFrom_cons] at h ⊢
    exact ⟨by omega, h.2⟩

/-- Below the first address a canonical list may hold, every read gives what the created core holds. -/
theorem Memory.read_of_lt {lo a : Nat} {m : Memory} (h : Memory.wfFrom f lo m = true) (ha : a < lo) :
    m.read f a = initialByte f a := by
  induction m generalizing lo with
  | nil => rfl
  | cons c m ih =>
    obtain ⟨b, u⟩ := c
    rw [Memory.wfFrom_cons] at h
    have : a ≠ b := by omega
    simp only [Memory.read, this, if_false]
    exact ih h.2.2.2 (by omega)

/-- A write leaves every other address alone. -/
theorem Memory.read_write_of_ne (m : Memory) {a c : Nat} (u : Byte) (h : c ≠ a) :
    (m.write f a u).read f c = m.read f c := by
  induction m with
  | nil => by_cases hu : u = initialByte f a <;> simp [Memory.write, Memory.read, hu, h]
  | cons x m ih =>
    obtain ⟨b, w⟩ := x
    by_cases hlt : a < b
    · by_cases hu : u = initialByte f a <;> simp [Memory.write, Memory.read, hlt, hu, h]
    · by_cases hab : a = b
      · subst hab
        by_cases hu : u = initialByte f a <;> simp [Memory.write, Memory.read, hu, h]
      · simp [Memory.write, Memory.read, hlt, hab, ih]

theorem Memory.read_write_self_from {lo : Nat} {m : Memory} (hm : Memory.wfFrom f lo m = true) (a : Nat) (u : Byte) :
    (m.write f a u).read f a = u := by
  induction m generalizing lo with
  | nil => by_cases hu : u = initialByte f a <;> simp [Memory.write, Memory.read, hu]
  | cons x m ih =>
    obtain ⟨b, w⟩ := x
    rw [Memory.wfFrom_cons] at hm
    by_cases hlt : a < b
    · by_cases hu : u = initialByte f a
      · have hne : a ≠ b := by omega
        simp [Memory.write, Memory.read, hlt, hu, hne, Memory.read_of_lt hm.2.2.2 (show a < b + 1 by omega)]
      · simp [Memory.write, Memory.read, hlt, hu]
    · by_cases hab : a = b
      · subst hab
        by_cases hu : u = initialByte f a
        · simp [Memory.write, hu, Memory.read_of_lt hm.2.2.2 (Nat.lt_succ_self a)]
        · simp [Memory.write, Memory.read, hu]
      · simp [Memory.write, Memory.read, hlt, hab, ih hm.2.2.2]

/-- In a canonical memory a read gives the byte last written there. -/
theorem Memory.read_write_self {m : Memory} (hm : m.wf f = true) (a : Nat) (u : Byte) : (m.write f a u).read f a = u :=
  Memory.read_write_self_from hm a u

theorem Memory.read_write {m : Memory} (hm : m.wf f = true) (a c : Nat) (u : Byte) :
    (m.write f a u).read f c = if c = a then u else m.read f c := by
  by_cases h : c = a
  · subst h; simp [Memory.read_write_self hm]
  · simp [Memory.read_write_of_ne m u h, h]

theorem Memory.wfFrom_write {lo : Nat} {m : Memory} (hm : Memory.wfFrom f lo m = true) {a : Nat} (u : Byte)
    (hlo : lo ≤ a) (ha : a < Config.memSize) : Memory.wfFrom f lo (m.write f a u) = true := by
  induction m generalizing lo with
  | nil =>
    by_cases hu : u = initialByte f a
    · simp [Memory.write, hu, Memory.wfFrom]
    · simp [Memory.write, hu, Memory.wfFrom, hlo, ha]
  | cons x m ih =>
    obtain ⟨b, w⟩ := x
    have hm' := hm
    rw [Memory.wfFrom_cons] at hm'
    obtain ⟨h1, h2, h3, h4⟩ := hm'
    by_cases hlt : a < b
    · by_cases hu : u = initialByte f a
      · simpa [Memory.write, hlt, hu] using hm
      · simp only [Memory.write, hlt, hu, if_true, if_false, Memory.wfFrom_cons]
        exact ⟨hlo, ha, hu, hlt, h2, h3, h4⟩
    · by_cases hab : a = b
      · subst hab
        by_cases hu : u = initialByte f a
        · simpa [Memory.write, hu] using Memory.wfFrom_mono (by omega) h4
        · simp only [Memory.write, hu, lt_irrefl, if_true, if_false, Memory.wfFrom_cons]
          exact ⟨hlo, ha, hu, h4⟩
      · simp only [Memory.write, hlt, hab, if_false, Memory.wfFrom_cons]
        exact ⟨h1, h2, h3, ih h4 (by omega)⟩

/-- A write to an address that exists keeps the canonical form. -/
theorem Memory.wf_write {m : Memory} (hm : m.wf f = true) {a : Nat} (u : Byte) (ha : a < Config.memSize) :
    (m.write f a u).wf f = true :=
  Memory.wfFrom_write hm u (Nat.zero_le a) ha

theorem Memory.wf_placeByte {m : Memory} (hm : m.wf f = true) (a : Nat) (u : Byte) : (placeByte f m a u).wf f = true := by
  by_cases h : a < Config.memSize
  · simpa [placeByte, h] using Memory.wf_write hm u h
  · simpa [placeByte, h] using hm

/-- An image keeps the canonical form. -/
theorem Memory.wf_placeBytes {m : Memory} (hm : m.wf f = true) (a : Nat) (us : List Byte) :
    (placeBytes f m a us).wf f = true := by
  induction us generalizing m a with
  | nil => exact hm
  | cons u us ih => exact ih (Memory.wf_placeByte hm a u) (a + 1)

/-- Reading after an image was placed: its own bytes inside it, everything else as before. -/
theorem Memory.read_placeBytes {m : Memory} (hm : m.wf f = true) (a : Nat) (us : List Byte)
    (hfit : a + us.length ≤ Config.memSize) (c : Nat) :
    (placeBytes f m a us).read f c = if a ≤ c ∧ c < a + us.length then us.getD (c - a) 0#8 else m.read f c := by
  induction us generalizing m a with
  | nil =>
    have : ¬(a ≤ c ∧ c < a) := by omega
    simp [placeBytes, this]
  | cons u us ih =>
    simp only [List.length_cons] at hfit
    have ha : a < Config.memSize := by omega
    rw [placeBytes, ih (Memory.wf_placeByte hm a u) (a + 1) (by omega)]
    simp only [placeByte, ha, if_true, Memory.read_write hm, List.length_cons]
    by_cases h1 : a + 1 ≤ c ∧ c < a + 1 + us.length
    · obtain ⟨k, rfl⟩ : ∃ k, c = a + 1 + k := ⟨c - (a + 1), by omega⟩
      have h2 : a ≤ a + 1 + k ∧ a + 1 + k < a + (us.length + 1) := by omega
      have e1 : a + 1 + k - (a + 1) = k := by omega
      have e2 : a + 1 + k - a = k + 1 := by omega
      simp [h1, h2, e1, e2]
    · by_cases h2 : c = a
      · subst h2
        have h3 : c ≤ c ∧ c < c + (us.length + 1) := by omega
        simp [h3]
      · have h3 : ¬(a ≤ c ∧ c < a + (us.length + 1)) := by omega
        simp only [h1, h2, h3, if_false]

/-- The same of the state's memory: what a read gives after a block store or a program load. -/
theorem State.byteAt_placeBytes {s : State} (hm : s.memWf = true) (a : Nat) (us : List Byte)
    (hfit : a + us.length ≤ Config.memSize) (c : Nat) :
    State.byteAt { s with mem := placeBytes s.config.font s.mem a us } c =
      if a ≤ c ∧ c < a + us.length then us.getD (c - a) 0#8 else s.byteAt c :=
  Memory.read_placeBytes hm a us hfit c

/-- The core just created holds its font and zeros (R33). -/
@[simp] theorem State.created_byteAt (c : Configuration) (a : Nat) :
    (State.created c).byteAt a = initialByte c.font a := rfl

@[simp] theorem State.created_memWf (c : Configuration) : (State.created c).memWf = true := rfl

end Sys2Proof.Machine
end

