-- ==== Sys2Proof/Laws/State.lean ====
section
/-! SUPPORT. One lemma per field per update, so that no later proof unfolds a record update; and what a register reads
as after a register was written. -/

namespace Sys2Proof.Machine

section Fields
variable (s : State)

/-! ### setReg -/

@[simp] theorem State.setReg_mem (r : RegIdx) (u : Byte) : (s.setReg r u).mem = s.mem := rfl
@[simp] theorem State.setReg_v (r : RegIdx) (u : Byte) : (s.setReg r u).v = s.v.set r.toNat u r.isLt := rfl
@[simp] theorem State.setReg_i (r : RegIdx) (u : Byte) : (s.setReg r u).i = s.i := rfl
@[simp] theorem State.setReg_pc (r : RegIdx) (u : Byte) : (s.setReg r u).pc = s.pc := rfl
@[simp] theorem State.setReg_stack (r : RegIdx) (u : Byte) : (s.setReg r u).stack = s.stack := rfl
@[simp] theorem State.setReg_dt (r : RegIdx) (u : Byte) : (s.setReg r u).dt = s.dt := rfl
@[simp] theorem State.setReg_st (r : RegIdx) (u : Byte) : (s.setReg r u).st = s.st := rfl
@[simp] theorem State.setReg_fb (r : RegIdx) (u : Byte) : (s.setReg r u).fb = s.fb := rfl
@[simp] theorem State.setReg_dirty (r : RegIdx) (u : Byte) : (s.setReg r u).dirty = s.dirty := rfl
@[simp] theorem State.setReg_reports (r : RegIdx) (u : Byte) : (s.setReg r u).reports = s.reports := rfl
@[simp] theorem State.setReg_fault (r : RegIdx) (u : Byte) : (s.setReg r u).fault = s.fault := rfl
@[simp] theorem State.setReg_config (r : RegIdx) (u : Byte) : (s.setReg r u).config = s.config := rfl
@[simp] theorem State.setReg_latch (r : RegIdx) (u : Byte) : (s.setReg r u).latch = s.latch := rfl
@[simp] theorem State.setReg_inputs (r : RegIdx) (u : Byte) : (s.setReg r u).inputs = s.inputs := rfl
@[simp] theorem State.setReg_drawn (r : RegIdx) (u : Byte) : (s.setReg r u).drawn = s.drawn := rfl
@[simp] theorem State.setReg_byteAt (r : RegIdx) (u : Byte) (a : Nat) : (s.setReg r u).byteAt a = s.byteAt a := rfl
@[simp] theorem State.setReg_memWf (r : RegIdx) (u : Byte) : (s.setReg r u).memWf = s.memWf := rfl

/-! ### setI -/

@[simp] theorem State.setI_mem (w : Word) : (s.setI w).mem = s.mem := rfl
@[simp] theorem State.setI_v (w : Word) : (s.setI w).v = s.v := rfl
@[simp] theorem State.setI_i (w : Word) : (s.setI w).i = w := rfl
@[simp] theorem State.setI_pc (w : Word) : (s.setI w).pc = s.pc := rfl
@[simp] theorem State.setI_stack (w : Word) : (s.setI w).stack = s.stack := rfl
@[simp] theorem State.setI_dt (w : Word) : (s.setI w).dt = s.dt := rfl
@[simp] theorem State.setI_st (w : Word) : (s.setI w).st = s.st := rfl
@[simp] theorem State.setI_fb (w : Word) : (s.setI w).fb = s.fb := rfl
@[simp] theorem State.setI_dirty (w : Word) : (s.setI w).dirty = s.dirty := rfl
@[simp] theorem State.setI_reports (w : Word) : (s.setI w).reports = s.reports := rfl
@[simp] theorem State.setI_fault (w : Word) : (s.setI w).fault = s.fault := rfl
@[simp] theorem State.setI_config (w : Word) : (s.setI w).config = s.config := rfl
@[simp] theorem State.setI_latch (w : Word) : (s.setI w).latch = s.latch := rfl
@[simp] theorem State.setI_inputs (w : Word) : (s.setI w).inputs = s.inputs := rfl
@[simp] theorem State.setI_drawn (w : Word) : (s.setI w).drawn = s.drawn := rfl
@[simp] theorem State.setI_reg (w : Word) (q : RegIdx) : (s.setI w).reg q = s.reg q := rfl
@[simp] theorem State.setI_byteAt (w : Word) (a : Nat) : (s.setI w).byteAt a = s.byteAt a := rfl
@[simp] theorem State.setI_memWf (w : Word) : (s.setI w).memWf = s.memWf := rfl

/-! ### setPc -/

@[simp] theorem State.setPc_mem (w : Word) : (s.setPc w).mem = s.mem := rfl
@[simp] theorem State.setPc_v (w : Word) : (s.setPc w).v = s.v := rfl
@[simp] theorem State.setPc_i (w : Word) : (s.setPc w).i = s.i := rfl
@[simp] theorem State.setPc_pc (w : Word) : (s.setPc w).pc = w := rfl
@[simp] theorem State.setPc_stack (w : Word) : (s.setPc w).stack = s.stack := rfl
@[simp] theorem State.setPc_dt (w : Word) : (s.setPc w).dt = s.dt := rfl
@[simp] theorem State.setPc_st (w : Word) : (s.setPc w).st = s.st := rfl
@[simp] theorem State.setPc_fb (w : Word) : (s.setPc w).fb = s.fb := rfl
@[simp] theorem State.setPc_dirty (w : Word) : (s.setPc w).dirty = s.dirty := rfl
@[simp] theorem State.setPc_reports (w : Word) : (s.setPc w).reports = s.reports := rfl
@[simp] theorem State.setPc_fault (w : Word) : (s.setPc w).fault = s.fault := rfl
@[simp] theorem State.setPc_config (w : Word) : (s.setPc w).config = s.config := rfl
@[simp] theorem State.setPc_latch (w : Word) : (s.setPc w).latch = s.latch := rfl
@[simp] theorem State.setPc_inputs (w : Word) : (s.setPc w).inputs = s.inputs := rfl
@[simp] theorem State.setPc_drawn (w : Word) : (s.setPc w).drawn = s.drawn := rfl
@[simp] theorem State.setPc_reg (w : Word) (q : RegIdx) : (s.setPc w).reg q = s.reg q := rfl
@[simp] theorem State.setPc_byteAt (w : Word) (a : Nat) : (s.setPc w).byteAt a = s.byteAt a := rfl
@[simp] theorem State.setPc_memWf (w : Word) : (s.setPc w).memWf = s.memWf := rfl

/-! ### skipIf -/

@[simp] theorem State.skipIf_mem (c : Bool) : (s.skipIf c).mem = s.mem := rfl
@[simp] theorem State.skipIf_v (c : Bool) : (s.skipIf c).v = s.v := rfl
@[simp] theorem State.skipIf_i (c : Bool) : (s.skipIf c).i = s.i := rfl
@[simp] theorem State.skipIf_pc (c : Bool) : (s.skipIf c).pc = if c then s.pc + 2#16 else s.pc := rfl
@[simp] theorem State.skipIf_stack (c : Bool) : (s.skipIf c).stack = s.stack := rfl
@[simp] theorem State.skipIf_dt (c : Bool) : (s.skipIf c).dt = s.dt := rfl
@[simp] theorem State.skipIf_st (c : Bool) : (s.skipIf c).st = s.st := rfl
@[simp] theorem State.skipIf_fb (c : Bool) : (s.skipIf c).fb = s.fb := rfl
@[simp] theorem State.skipIf_dirty (c : Bool) : (s.skipIf c).dirty = s.dirty := rfl
@[simp] theorem State.skipIf_reports (c : Bool) : (s.skipIf c).reports = s.reports := rfl
@[simp] theorem State.skipIf_fault (c : Bool) : (s.skipIf c).fault = s.fault := rfl
@[simp] theorem State.skipIf_config (c : Bool) : (s.skipIf c).config = s.config := rfl
@[simp] theorem State.skipIf_latch (c : Bool) : (s.skipIf c).latch = s.latch := rfl
@[simp] theorem State.skipIf_inputs (c : Bool) : (s.skipIf c).inputs = s.inputs := rfl
@[simp] theorem State.skipIf_drawn (c : Bool) : (s.skipIf c).drawn = s.drawn := rfl
@[simp] theorem State.skipIf_reg (c : Bool) (q : RegIdx) : (s.skipIf c).reg q = s.reg q := rfl
@[simp] theorem State.skipIf_byteAt (c : Bool) (a : Nat) : (s.skipIf c).byteAt a = s.byteAt a := rfl
@[simp] theorem State.skipIf_memWf (c : Bool) : (s.skipIf c).memWf = s.memWf := rfl

/-! ### setDt -/

@[simp] theorem State.setDt_mem (u : Byte) : (s.setDt u).mem = s.mem := rfl
@[simp] theorem State.setDt_v (u : Byte) : (s.setDt u).v = s.v := rfl
@[simp] theorem State.setDt_i (u : Byte) : (s.setDt u).i = s.i := rfl
@[simp] theorem State.setDt_pc (u : Byte) : (s.setDt u).pc = s.pc := rfl
@[simp] theorem State.setDt_stack (u : Byte) : (s.setDt u).stack = s.stack := rfl
@[simp] theorem State.setDt_dt (u : Byte) : (s.setDt u).dt = u := rfl
@[simp] theorem State.setDt_st (u : Byte) : (s.setDt u).st = s.st := rfl
@[simp] theorem State.setDt_fb (u : Byte) : (s.setDt u).fb = s.fb := rfl
@[simp] theorem State.setDt_dirty (u : Byte) : (s.setDt u).dirty = s.dirty := rfl
@[simp] theorem State.setDt_reports (u : Byte) : (s.setDt u).reports = s.reports := rfl
@[simp] theorem State.setDt_fault (u : Byte) : (s.setDt u).fault = s.fault := rfl
@[simp] theorem State.setDt_config (u : Byte) : (s.setDt u).config = s.config := rfl
@[simp] theorem State.setDt_latch (u : Byte) : (s.setDt u).latch = s.latch := rfl
@[simp] theorem State.setDt_inputs (u : Byte) : (s.setDt u).inputs = s.inputs := rfl
@[simp] theorem State.setDt_drawn (u : Byte) : (s.setDt u).drawn = s.drawn := rfl
@[simp] theorem State.setDt_reg (u : Byte) (q : RegIdx) : (s.setDt u).reg q = s.reg q := rfl
@[simp] theorem State.setDt_byteAt (u : Byte) (a : Nat) : (s.setDt u).byteAt a = s.byteAt a := rfl
@[simp] theorem State.setDt_memWf (u : Byte) : (s.setDt u).memWf = s.memWf := rfl

/-! ### setSt -/

@[simp] theorem State.setSt_mem (u : Byte) : (s.setSt u).mem = s.mem := rfl
@[simp] theorem State.setSt_v (u : Byte) : (s.setSt u).v = s.v := rfl
@[simp] theorem State.setSt_i (u : Byte) : (s.setSt u).i = s.i := rfl
@[simp] theorem State.setSt_pc (u : Byte) : (s.setSt u).pc = s.pc := rfl
@[simp] theorem State.setSt_stack (u : Byte) : (s.setSt u).stack = s.stack := rfl
@[simp] theorem State.setSt_dt (u : Byte) : (s.setSt u).dt = s.dt := rfl
@[simp] theorem State.setSt_st (u : Byte) : (s.setSt u).st = u := rfl
@[simp] theorem State.setSt_fb (u : Byte) : (s.setSt u).fb = s.fb := rfl
@[simp] theorem State.setSt_dirty (u : Byte) : (s.setSt u).dirty = s.dirty := rfl
@[simp] theorem State.setSt_reports (u : Byte) : (s.setSt u).reports = s.reports := rfl
@[simp] theorem State.setSt_fault (u : Byte) : (s.setSt u).fault = s.fault := rfl
@[simp] theorem State.setSt_config (u : Byte) : (s.setSt u).config = s.config := rfl
@[simp] theorem State.setSt_latch (u : Byte) : (s.setSt u).latch = s.latch := rfl
@[simp] theorem State.setSt_inputs (u : Byte) : (s.setSt u).inputs = s.inputs := rfl
@[simp] theorem State.setSt_drawn (u : Byte) : (s.setSt u).drawn = s.drawn := rfl
@[simp] theorem State.setSt_reg (u : Byte) (q : RegIdx) : (s.setSt u).reg q = s.reg q := rfl
@[simp] theorem State.setSt_byteAt (u : Byte) (a : Nat) : (s.setSt u).byteAt a = s.byteAt a := rfl
@[simp] theorem State.setSt_memWf (u : Byte) : (s.setSt u).memWf = s.memWf := rfl

/-! ### report -/

@[simp] theorem State.report_mem (w : Word) : (s.report w).mem = s.mem := rfl
@[simp] theorem State.report_v (w : Word) : (s.report w).v = s.v := rfl
@[simp] theorem State.report_i (w : Word) : (s.report w).i = s.i := rfl
@[simp] theorem State.report_pc (w : Word) : (s.report w).pc = s.pc := rfl
@[simp] theorem State.report_stack (w : Word) : (s.report w).stack = s.stack := rfl
@[simp] theorem State.report_dt (w : Word) : (s.report w).dt = s.dt := rfl
@[simp] theorem State.report_st (w : Word) : (s.report w).st = s.st := rfl
@[simp] theorem State.report_fb (w : Word) : (s.report w).fb = s.fb := rfl
@[simp] theorem State.report_dirty (w : Word) : (s.report w).dirty = s.dirty := rfl
@[simp] theorem State.report_reports (w : Word) : (s.report w).reports = s.reports ++ [w] := rfl
@[simp] theorem State.report_fault (w : Word) : (s.report w).fault = s.fault := rfl
@[simp] theorem State.report_config (w : Word) : (s.report w).config = s.config := rfl
@[simp] theorem State.report_latch (w : Word) : (s.report w).latch = s.latch := rfl
@[simp] theorem State.report_inputs (w : Word) : (s.report w).inputs = s.inputs := rfl
@[simp] theorem State.report_drawn (w : Word) : (s.report w).drawn = s.drawn := rfl
@[simp] theorem State.report_reg (w : Word) (q : RegIdx) : (s.report w).reg q = s.reg q := rfl
@[simp] theorem State.report_byteAt (w : Word) (a : Nat) : (s.report w).byteAt a = s.byteAt a := rfl
@[simp] theorem State.report_memWf (w : Word) : (s.report w).memWf = s.memWf := rfl

/-! ### show -/

@[simp] theorem State.show_mem (fb : Framebuffer) : (s.show fb).mem = s.mem := rfl
@[simp] theorem State.show_v (fb : Framebuffer) : (s.show fb).v = s.v := rfl
@[simp] theorem State.show_i (fb : Framebuffer) : (s.show fb).i = s.i := rfl
@[simp] theorem State.show_pc (fb : Framebuffer) : (s.show fb).pc = s.pc := rfl
@[simp] theorem State.show_stack (fb : Framebuffer) : (s.show fb).stack = s.stack := rfl
@[simp] theorem State.show_dt (fb : Framebuffer) : (s.show fb).dt = s.dt := rfl
@[simp] theorem State.show_st (fb : Framebuffer) : (s.show fb).st = s.st := rfl
@[simp] theorem State.show_fb (fb : Framebuffer) : (s.show fb).fb = fb := rfl
@[simp] theorem State.show_dirty (fb : Framebuffer) : (s.show fb).dirty = true := rfl
@[simp] theorem State.show_reports (fb : Framebuffer) : (s.show fb).reports = s.reports := rfl
@[simp] theorem State.show_fault (fb : Framebuffer) : (s.show fb).fault = s.fault := rfl
@[simp] theorem State.show_config (fb : Framebuffer) : (s.show fb).config = s.config := rfl
@[simp] theorem State.show_latch (fb : Framebuffer) : (s.show fb).latch = s.latch := rfl
@[simp] theorem State.show_inputs (fb : Framebuffer) : (s.show fb).inputs = s.inputs := rfl
@[simp] theorem State.show_drawn (fb : Framebuffer) : (s.show fb).drawn = s.drawn := rfl
@[simp] theorem State.show_reg (fb : Framebuffer) (q : RegIdx) : (s.show fb).reg q = s.reg q := rfl
@[simp] theorem State.show_byteAt (fb : Framebuffer) (a : Nat) : (s.show fb).byteAt a = s.byteAt a := rfl
@[simp] theorem State.show_memWf (fb : Framebuffer) : (s.show fb).memWf = s.memWf := rfl

/-! ### timerUpdate -/

@[simp] theorem State.timerUpdate_mem (tick : Bool) : (s.timerUpdate tick).mem = s.mem := rfl
@[simp] theorem State.timerUpdate_v (tick : Bool) : (s.timerUpdate tick).v = s.v := rfl
@[simp] theorem State.timerUpdate_i (tick : Bool) : (s.timerUpdate tick).i = s.i := rfl
@[simp] theorem State.timerUpdate_pc (tick : Bool) : (s.timerUpdate tick).pc = s.pc := rfl
@[simp] theorem State.timerUpdate_stack (tick : Bool) : (s.timerUpdate tick).stack = s.stack := rfl
@[simp] theorem State.timerUpdate_dt (tick : Bool) : (s.timerUpdate tick).dt = countDown tick s.dt := rfl
@[simp] theorem State.timerUpdate_st (tick : Bool) : (s.timerUpdate tick).st = countDown tick s.st := rfl
@[simp] theorem State.timerUpdate_fb (tick : Bool) : (s.timerUpdate tick).fb = s.fb := rfl
@[simp] theorem State.timerUpdate_dirty (tick : Bool) : (s.timerUpdate tick).dirty = s.dirty := rfl
@[simp] theorem State.timerUpdate_reports (tick : Bool) : (s.timerUpdate tick).reports = s.reports := rfl
@[simp] theorem State.timerUpdate_fault (tick : Bool) : (s.timerUpdate tick).fault = s.fault := rfl
@[simp] theorem State.timerUpdate_config (tick : Bool) : (s.timerUpdate tick).config = s.config := rfl
@[simp] theorem State.timerUpdate_latch (tick : Bool) : (s.timerUpdate tick).latch = s.latch := rfl
@[simp] theorem State.timerUpdate_inputs (tick : Bool) : (s.timerUpdate tick).inputs = s.inputs := rfl
@[simp] theorem State.timerUpdate_drawn (tick : Bool) : (s.timerUpdate tick).drawn = s.drawn := rfl
@[simp] theorem State.timerUpdate_reg (tick : Bool) (q : RegIdx) : (s.timerUpdate tick).reg q = s.reg q := rfl
@[simp] theorem State.timerUpdate_byteAt (tick : Bool) (a : Nat) : (s.timerUpdate tick).byteAt a = s.byteAt a := rfl
@[simp] theorem State.timerUpdate_memWf (tick : Bool) : (s.timerUpdate tick).memWf = s.memWf := rfl

/-! ### timerAt -/

@[simp] theorem State.timerAt_mem (phase : TimerPhase) : (s.timerAt phase).mem = s.mem := rfl
@[simp] theorem State.timerAt_v (phase : TimerPhase) : (s.timerAt phase).v = s.v := rfl
@[simp] theorem State.timerAt_i (phase : TimerPhase) : (s.timerAt phase).i = s.i := rfl
@[simp] theorem State.timerAt_pc (phase : TimerPhase) : (s.timerAt phase).pc = s.pc := rfl
@[simp] theorem State.timerAt_stack (phase : TimerPhase) : (s.timerAt phase).stack = s.stack := rfl
@[simp] theorem State.timerAt_dt (phase : TimerPhase) : (s.timerAt phase).dt = countDown (s.latch.tick && decide (s.config.timerPhase = phase)) s.dt := rfl
@[simp] theorem State.timerAt_st (phase : TimerPhase) : (s.timerAt phase).st = countDown (s.latch.tick && decide (s.config.timerPhase = phase)) s.st := rfl
@[simp] theorem State.timerAt_fb (phase : TimerPhase) : (s.timerAt phase).fb = s.fb := rfl
@[simp] theorem State.timerAt_dirty (phase : TimerPhase) : (s.timerAt phase).dirty = s.dirty := rfl
@[simp] theorem State.timerAt_reports (phase : TimerPhase) : (s.timerAt phase).reports = s.reports := rfl
@[simp] theorem State.timerAt_fault (phase : TimerPhase) : (s.timerAt phase).fault = s.fault := rfl
@[simp] theorem State.timerAt_config (phase : TimerPhase) : (s.timerAt phase).config = s.config := rfl
@[simp] theorem State.timerAt_latch (phase : TimerPhase) : (s.timerAt phase).latch = s.latch := rfl
@[simp] theorem State.timerAt_inputs (phase : TimerPhase) : (s.timerAt phase).inputs = s.inputs := rfl
@[simp] theorem State.timerAt_drawn (phase : TimerPhase) : (s.timerAt phase).drawn = s.drawn := rfl
@[simp] theorem State.timerAt_reg (phase : TimerPhase) (q : RegIdx) : (s.timerAt phase).reg q = s.reg q := rfl
@[simp] theorem State.timerAt_byteAt (phase : TimerPhase) (a : Nat) : (s.timerAt phase).byteAt a = s.byteAt a := rfl
@[simp] theorem State.timerAt_memWf (phase : TimerPhase) : (s.timerAt phase).memWf = s.memWf := rfl

/-! ### latchInput -/

@[simp] theorem State.latchInput_mem : (s.latchInput).mem = s.mem := rfl
@[simp] theorem State.latchInput_v : (s.latchInput).v = s.v := rfl
@[simp] theorem State.latchInput_i : (s.latchInput).i = s.i := rfl
@[simp] theorem State.latchInput_pc : (s.latchInput).pc = s.pc := rfl
@[simp] theorem State.latchInput_stack : (s.latchInput).stack = s.stack := rfl
@[simp] theorem State.latchInput_dt : (s.latchInput).dt = s.dt := rfl
@[simp] theorem State.latchInput_st : (s.latchInput).st = s.st := rfl
@[simp] theorem State.latchInput_fb : (s.latchInput).fb = s.fb := rfl
@[simp] theorem State.latchInput_dirty : (s.latchInput).dirty = s.dirty := rfl
@[simp] theorem State.latchInput_reports : (s.latchInput).reports = s.reports := rfl
@[simp] theorem State.latchInput_fault : (s.latchInput).fault = s.fault := rfl
@[simp] theorem State.latchInput_config : (s.latchInput).config = s.config := rfl
@[simp] theorem State.latchInput_latch : (s.latchInput).latch = s.nextInput := rfl
@[simp] theorem State.latchInput_inputs : (s.latchInput).inputs = s.inputs.tail := rfl
@[simp] theorem State.latchInput_drawn : (s.latchInput).drawn = if s.inputs.isEmpty then s.drawn + 1 else s.drawn := rfl
@[simp] theorem State.latchInput_reg (q : RegIdx) : (s.latchInput).reg q = s.reg q := rfl
@[simp] theorem State.latchInput_byteAt (a : Nat) : (s.latchInput).byteAt a = s.byteAt a := rfl
@[simp] theorem State.latchInput_memWf : (s.latchInput).memWf = s.memWf := rfl

/-! ### beginStep -/

@[simp] theorem State.beginStep_mem : (s.beginStep).mem = s.mem := rfl
@[simp] theorem State.beginStep_v : (s.beginStep).v = s.v := rfl
@[simp] theorem State.beginStep_i : (s.beginStep).i = s.i := rfl
@[simp] theorem State.beginStep_pc : (s.beginStep).pc = s.pc := rfl
@[simp] theorem State.beginStep_stack : (s.beginStep).stack = s.stack := rfl
@[simp] theorem State.beginStep_dt : (s.beginStep).dt = countDown (s.nextInput.tick && decide (s.config.timerPhase = .beforeExecute)) s.dt := rfl
@[simp] theorem State.beginStep_st : (s.beginStep).st = countDown (s.nextInput.tick && decide (s.config.timerPhase = .beforeExecute)) s.st := rfl
@[simp] theorem State.beginStep_fb : (s.beginStep).fb = s.fb := rfl
@[simp] theorem State.beginStep_dirty : (s.beginStep).dirty = s.dirty := rfl
@[simp] theorem State.beginStep_reports : (s.beginStep).reports = s.reports := rfl
@[simp] theorem State.beginStep_fault : (s.beginStep).fault = s.fault := rfl
@[simp] theorem State.beginStep_config : (s.beginStep).config = s.config := rfl
@[simp] theorem State.beginStep_latch : (s.beginStep).latch = s.nextInput := rfl
@[simp] theorem State.beginStep_inputs : (s.beginStep).inputs = s.inputs.tail := rfl
@[simp] theorem State.beginStep_drawn : (s.beginStep).drawn = if s.inputs.isEmpty then s.drawn + 1 else s.drawn := rfl
@[simp] theorem State.beginStep_reg (q : RegIdx) : (s.beginStep).reg q = s.reg q := rfl
@[simp] theorem State.beginStep_byteAt (a : Nat) : (s.beginStep).byteAt a = s.byteAt a := rfl
@[simp] theorem State.beginStep_memWf : (s.beginStep).memWf = s.memWf := rfl

/-! ### endStep -/

@[simp] theorem State.endStep_mem : (s.endStep).mem = s.mem := rfl
@[simp] theorem State.endStep_v : (s.endStep).v = s.v := rfl
@[simp] theorem State.endStep_i : (s.endStep).i = s.i := rfl
@[simp] theorem State.endStep_pc : (s.endStep).pc = s.pc := rfl
@[simp] theorem State.endStep_stack : (s.endStep).stack = s.stack := rfl
@[simp] theorem State.endStep_dt : (s.endStep).dt = countDown (s.latch.tick && decide (s.config.timerPhase = .afterExecute)) s.dt := rfl
@[simp] theorem State.endStep_st : (s.endStep).st = countDown (s.latch.tick && decide (s.config.timerPhase = .afterExecute)) s.st := rfl
@[simp] theorem State.endStep_fb : (s.endStep).fb = s.fb := rfl
@[simp] theorem State.endStep_dirty : (s.endStep).dirty = s.dirty := rfl
@[simp] theorem State.endStep_reports : (s.endStep).reports = s.reports := rfl
@[simp] theorem State.endStep_fault : (s.endStep).fault = s.fault := rfl
@[simp] theorem State.endStep_config : (s.endStep).config = s.config := rfl
@[simp] theorem State.endStep_latch : (s.endStep).latch = s.latch := rfl
@[simp] theorem State.endStep_inputs : (s.endStep).inputs = s.inputs := rfl
@[simp] theorem State.endStep_drawn : (s.endStep).drawn = s.drawn := rfl
@[simp] theorem State.endStep_reg (q : RegIdx) : (s.endStep).reg q = s.reg q := rfl
@[simp] theorem State.endStep_byteAt (a : Nat) : (s.endStep).byteAt a = s.byteAt a := rfl
@[simp] theorem State.endStep_memWf : (s.endStep).memWf = s.memWf := rfl

/-! ### atExecute -/

@[simp] theorem State.atExecute_mem : (s.atExecute).mem = s.mem := rfl
@[simp] theorem State.atExecute_v : (s.atExecute).v = s.v := rfl
@[simp] theorem State.atExecute_i : (s.atExecute).i = s.i := rfl
@[simp] theorem State.atExecute_pc : (s.atExecute).pc = s.pc + 2#16 := rfl
@[simp] theorem State.atExecute_stack : (s.atExecute).stack = s.stack := rfl
@[simp] theorem State.atExecute_dt : (s.atExecute).dt = countDown (s.nextInput.tick && decide (s.config.timerPhase = .beforeExecute)) s.dt := rfl
@[simp] theorem State.atExecute_st : (s.atExecute).st = countDown (s.nextInput.tick && decide (s.config.timerPhase = .beforeExecute)) s.st := rfl
@[simp] theorem State.atExecute_fb : (s.atExecute).fb = s.fb := rfl
@[simp] theorem State.atExecute_dirty : (s.atExecute).dirty = s.dirty := rfl
@[simp] theorem State.atExecute_reports : (s.atExecute).reports = s.reports := rfl
@[simp] theorem State.atExecute_fault : (s.atExecute).fault = s.fault := rfl
@[simp] theorem State.atExecute_config : (s.atExecute).config = s.config := rfl
@[simp] theorem State.atExecute_latch : (s.atExecute).latch = s.nextInput := rfl
@[simp] theorem State.atExecute_inputs : (s.atExecute).inputs = s.inputs.tail := rfl
@[simp] theorem State.atExecute_drawn : (s.atExecute).drawn = if s.inputs.isEmpty then s.drawn + 1 else s.drawn := rfl
@[simp] theorem State.atExecute_reg (q : RegIdx) : (s.atExecute).reg q = s.reg q := rfl
@[simp] theorem State.atExecute_byteAt (a : Nat) : (s.atExecute).byteAt a = s.byteAt a := rfl
@[simp] theorem State.atExecute_memWf : (s.atExecute).memWf = s.memWf := rfl

end Fields

/-! ### reading a register after a write -/

theorem State.setReg_reg (s : State) (r q : RegIdx) (u : Byte) :
    (s.setReg r u).reg q = if q = r then u else s.reg q := by
  simp only [State.reg, State.setReg, Vector.getElem_set]
  by_cases h : q = r
  · simp [h]
  · have : r.toNat ≠ q.toNat := fun e => h (BitVec.eq_of_toNat_eq e.symm)
    simp [h, this]

@[simp] theorem State.setReg_reg_self (s : State) (r : RegIdx) (u : Byte) : (s.setReg r u).reg r = u := by
  simp [State.setReg_reg]

theorem State.setReg_reg_of_ne (s : State) {r q : RegIdx} (u : Byte) (h : q ≠ r) :
    (s.setReg r u).reg q = s.reg q := by
  simp [State.setReg_reg, h]

/-- A result and a flag: VF holds the flag, V[x] the result unless it is VF, and nothing else changed (R18). -/
theorem State.setRegFlag_reg (s : State) (x q : RegIdx) (a f : Byte) :
    (s.setRegFlag x a f).reg q = if q = vf then f else if q = x then a else s.reg q := by
  simp [State.setRegFlag, State.setReg_reg]

end Sys2Proof.Machine
end

