-- ==== Sys2Proof/Laws/Ops.lean ====
section
/-! SUPPORT. One specification lemma per shared operation: everything it can answer. -/

namespace Sys2Proof.Machine

/-! ## Memory accesses -/

theorem State.memRead_ok {s : State} {a : Nat} (h : a < Config.memSize) : s.memRead a = .ok (s.byteAt a) := by
  simp [State.memRead, h]

theorem State.memRead_error {s : State} {a : Nat} (h : Config.memSize ≤ a) :
    s.memRead a = .error (.memoryOutOfRange a) := by
  simp [State.memRead, Nat.not_lt.mpr h]

theorem State.memWrite_ok {s : State} {a : Nat} (u : Byte) (h : a < Config.memSize) :
    s.memWrite a u = .ok { s with mem := s.mem.write s.config.font a u } := by
  simp [State.memWrite, h]

theorem State.memWrite_error {s : State} {a : Nat} (u : Byte) (h : Config.memSize ≤ a) :
    s.memWrite a u = .error (.memoryOutOfRange a) := by
  simp [State.memWrite, Nat.not_lt.mpr h]

/-- A block store that fits changes memory as the image of its bytes, and nothing else. -/
theorem State.storeBytes_ok (s : State) (a : Nat) (us : List Byte) (h : a + us.length ≤ Config.memSize) :
    s.storeBytes a us = .ok { s with mem := placeBytes s.config.font s.mem a us } := by
  induction us generalizing s a with
  | nil => rfl
  | cons u us ih =>
    simp only [List.length_cons] at h
    have ha : a < Config.memSize := by omega
    rw [State.storeBytes, State.memWrite_ok u ha]
    simp only
    rw [ih _ (a + 1) (by omega)]
    simp [placeBytes, placeByte, ha]

/-- A block store that does not fit faults with its first address out of range (R89). -/
theorem State.storeBytes_error (s : State) (a : Nat) (us : List Byte) (hne : us ≠ [])
    (h : Config.memSize < a + us.length) : s.storeBytes a us = .error (.memoryOutOfRange (max a Config.memSize)) := by
  induction us generalizing s a with
  | nil => exact absurd rfl hne
  | cons u us ih =>
    simp only [List.length_cons] at h
    by_cases ha : a < Config.memSize
    · rw [State.storeBytes, State.memWrite_ok u ha]
      simp only
      rw [ih _ (a + 1) (by rintro rfl; simp at h; omega) (by omega)]
      congr 2
      omega
    · rw [State.storeBytes, State.memWrite_error u (by omega)]
      simp only
      congr 2
      omega

theorem State.storeBytes_cases (s : State) (a : Nat) (us : List Byte) (hne : us ≠ []) :
    (a + us.length ≤ Config.memSize ∧ s.storeBytes a us = .ok { s with mem := placeBytes s.config.font s.mem a us }) ∨
    (Config.memSize < a + us.length ∧ s.storeBytes a us = .error (.memoryOutOfRange (max a Config.memSize))) := by
  by_cases h : a + us.length ≤ Config.memSize
  · exact .inl ⟨h, s.storeBytes_ok a us h⟩
  · exact .inr ⟨by omega, s.storeBytes_error a us hne (by omega)⟩

/-! ## Register blocks -/

@[simp] theorem regsUpTo_length (x : RegIdx) : (regsUpTo x).length = x.toNat + 1 := by simp [regsUpTo]

theorem regsUpTo_ne_nil (x : RegIdx) : regsUpTo x ≠ [] := by
  intro h
  have := congrArg List.length h
  simp at this

theorem mem_regsUpTo {x q : RegIdx} : q ∈ regsUpTo x ↔ q.toNat ≤ x.toNat := by
  simp only [regsUpTo, List.mem_map, List.mem_range]
  constructor
  · rintro ⟨k, hk, rfl⟩
    have := x.isLt
    simp only [BitVec.toNat_ofNat]
    omega
  · intro h
    exact ⟨q.toNat, by omega, by simp⟩

theorem regsUpTo_getD (x : RegIdx) (f : RegIdx → Byte) {k : Nat} (hk : k ≤ x.toNat) :
    ((regsUpTo x).map f).getD k 0#8 = f (BitVec.ofNat 4 k) := by
  have h : k < x.toNat + 1 := by omega
  simp [regsUpTo, List.getD, List.getElem?_map, List.getElem?_range h]

/-- A block load whose addresses exist writes exactly its registers, from the bytes at I + k. -/
theorem State.loadRegs_ok (s : State) (ks : List RegIdx)
    (h : ∀ k ∈ ks, s.i.toNat + k.toNat < Config.memSize) :
    ∃ v, s.loadRegs ks = .ok { s with v := v } ∧
      ∀ q, State.reg { s with v := v } q = if q ∈ ks then s.byteAt (s.i.toNat + q.toNat) else s.reg q := by
  induction ks generalizing s with
  | nil => exact ⟨s.v, rfl, fun q => by simp⟩
  | cons k ks ih =>
    obtain ⟨v, hv, hr⟩ := ih (s.setReg k (s.byteAt (s.i.toNat + k.toNat))) (fun q hq => h q (by simp [hq]))
    refine ⟨v, ?_, fun q => ?_⟩
    · rw [State.loadRegs, State.memRead_ok (h k (by simp))]
      exact hv
    · refine (hr q).trans ?_
      by_cases h1 : q ∈ ks
      · simp [h1]
      · by_cases h2 : q = k
        · subst h2; simp [h1]
        · simp [h1, h2, State.setReg_reg_of_ne]

theorem State.loadRegs_error_from (n : Nat) (s : State) (j : Nat) (hj : j + n ≤ 16) (hn : 0 < n)
    (h : Config.memSize < s.i.toNat + j + n) :
    s.loadRegs ((List.range' j n).map (BitVec.ofNat 4)) =
      .error (.memoryOutOfRange (max (s.i.toNat + j) Config.memSize)) := by
  induction n generalizing s j with
  | zero => omega
  | succ n ih =>
    have ej : (BitVec.ofNat 4 j).toNat = j := by simp; omega
    rw [List.range'_succ, List.map_cons, State.loadRegs, ej]
    by_cases ha : s.i.toNat + j < Config.memSize
    · rw [State.memRead_ok ha]
      simp only
      rw [ih _ (j + 1) (by omega) (by omega) (by simp only [State.setReg_i]; omega)]
      simp only [State.setReg_i]
      congr 2
      omega
    · rw [State.memRead_error (by omega)]
      simp only
      congr 2
      omega

/-- A block load that does not fit faults with its first address out of range (R89). -/
theorem State.loadRegs_error (s : State) (x : RegIdx) (h : Config.memSize ≤ s.i.toNat + x.toNat) :
    s.loadRegs (regsUpTo x) = .error (.memoryOutOfRange (max s.i.toNat Config.memSize)) := by
  have := State.loadRegs_error_from (x.toNat + 1) s 0 (by have := x.isLt; omega) (by omega) (by omega)
  simpa [regsUpTo, List.range_eq_range'] using this

/-! ## The call stack -/

theorem State.push_ok {s : State} (w : Word) (h : s.stack.length < s.config.stackDepth) :
    s.push w = .ok { s with stack := s.stack ++ [w] } := by
  simp [State.push, h]

theorem State.push_error {s : State} (w : Word) (h : s.config.stackDepth ≤ s.stack.length) :
    s.push w = .error .stackOverflow := by
  simp [State.push, Nat.not_lt.mpr h]

theorem State.pop_ok {s : State} {ws : List Word} {w : Word} (h : s.stack = ws ++ [w]) :
    s.pop = .ok (w, { s with stack := ws }) := by
  simp [State.pop, h]

theorem State.pop_error {s : State} (h : s.stack = []) : s.pop = .error .stackUnderflow := by
  simp [State.pop, h]

theorem State.pop_cases (s : State) :
    (s.stack = [] ∧ s.pop = .error .stackUnderflow) ∨
    ∃ ws w, s.stack = ws ++ [w] ∧ s.pop = .ok (w, { s with stack := ws }) := by
  rcases List.eq_nil_or_concat s.stack with h | ⟨ws, w, h⟩
  · exact .inl ⟨h, State.pop_error h⟩
  · have h' : s.stack = ws ++ [w] := by simpa using h
    exact .inr ⟨ws, w, h', State.pop_ok h'⟩

/-! ## The fetch -/

theorem State.fetch_ok {s : State} (h : Fetchable s) : s.fetch = .ok (s.wordAtPc, s.setPc (s.pc + 2#16)) := by
  have h1 : s.pc.toNat + 1 < Config.memSize := h
  rw [State.fetch, State.memRead_ok (show s.pc.toNat < Config.memSize by omega), State.memRead_ok h1]
  rfl

theorem State.fetch_error {s : State} (h : ¬ Fetchable s) :
    s.fetch = .error (.memoryOutOfRange (max s.pc.toNat Config.memSize)) := by
  have h1 : ¬ s.pc.toNat + 1 < Config.memSize := h
  rw [State.fetch]
  by_cases h2 : s.pc.toNat < Config.memSize
  · rw [State.memRead_ok h2, State.memRead_error (by omega)]
    simp only
    congr 2
    omega
  · rw [State.memRead_error (by omega)]
    simp only
    congr 2
    omega

/-! ## The sprite range check -/

theorem firstOutOfRange_none {base count : Nat} (h : base + count ≤ Config.memSize ∨ count = 0) :
    firstOutOfRange base count = none := by
  simp only [firstOutOfRange, List.find?_eq_none, List.mem_map, List.mem_range, decide_eq_true_eq, not_le]
  rintro _ ⟨k, hk, rfl⟩
  omega

theorem firstOutOfRange_some {base count : Nat} (h : Config.memSize < base + count) (hc : 0 < count) :
    firstOutOfRange base count = some (max base Config.memSize) := by
  have : ∀ n j, 0 < n → Config.memSize < base + j + n →
      ((List.range' j n).map (base + ·)).find? (fun a => decide (Config.memSize ≤ a)) =
        some (max (base + j) Config.memSize) := by
    intro n
    induction n with
    | zero => intro j h0; omega
    | succ n ih =>
      intro j _ hj
      rw [List.range'_succ, List.map_cons, List.find?_cons]
      by_cases ha : Config.memSize ≤ base + j
      · simp only [ha, decide_true]
        congr 1
        omega
      · simp only [ha, decide_false]
        rw [ih (j + 1) (by omega) (by omega)]
        congr 1
        omega
  simpa [firstOutOfRange, List.range_eq_range'] using this count 0 hc (by omega)

/-! ## Timers and flags -/

theorem countDown_true (u : Byte) : countDown true u = if u = 0#8 then 0#8 else u - 1#8 := rfl

@[simp] theorem countDown_false (u : Byte) : countDown false u = u := rfl

/-- The countdown as a number: one less under an open gate, never below 0 (R112). -/
theorem countDown_toNat (gate : Bool) (u : Byte) :
    (countDown gate u).toNat = if gate = true then u.toNat - 1 else u.toNat := by
  cases gate with
  | false => simp
  | true =>
    simp only [countDown_true, if_true]
    split
    · next h => subst h; rfl
    · next h =>
      have h0 : u.toNat ≠ 0 := fun e => h (BitVec.eq_of_toNat_eq e)
      have := u.isLt
      rw [BitVec.toNat_sub]
      simp
      omega

/-- Of the two places of the timer update exactly one counts. -/
theorem countDown_both_places (gate : Bool) (c : Configuration) (u : Byte) :
    (countDown (gate && decide (c.timerPhase = .afterExecute))
      (countDown (gate && decide (c.timerPhase = .beforeExecute)) u)).toNat =
      if gate = true then u.toNat - 1 else u.toNat := by
  cases gate <;> cases h : c.timerPhase <;> simp [countDown_toNat]

@[simp] theorem flagByte_true : flagByte true = 1#8 := rfl

@[simp] theorem flagByte_false : flagByte false = 0#8 := rfl

end Sys2Proof.Machine
end

