-- ==== Sys2Proof/Laws/Display.lean ====
section
/-! SUPPORT. The sprite engine: what one bit, one row and all rows of a drawing do to any pixel and to the collision. -/

namespace Sys2Proof.Machine

/-! ## Pixels -/

@[simp] theorem pixel_clear (row col : Nat) : Framebuffer.clear.pixel row col = false := by
  simp [Framebuffer.pixel, Framebuffer.clear]

/-- A flip toggles its own pixel and no other. -/
theorem pixel_flip (fb : Framebuffer) {row col : Nat} (hr : row < 32) (hc : col < 64) (row' col' : Nat) :
    (fb.flip row col).pixel row' col' = (fb.pixel row' col' ^^ decide (row' = row ∧ col' = col)) := by
  simp only [Framebuffer.flip, hr, dif_pos, Framebuffer.pixel]
  by_cases hr' : row' < 32
  · simp only [hr', dif_pos, Vector.getElem_set]
    by_cases e : row = row'
    · subst e
      by_cases e2 : col' = col
      · subst e2; simp [hc]
      · simp [BitVec.getLsbD_twoPow, e2, show ¬(col = col') from fun h => e2 h.symm]
    · simp [e, show ¬(row' = row) from fun h => e h.symm]
  · have : ¬(row' = row) := by omega
    simp [hr', this]

/-- Two columns of one sprite row are different. -/
theorem column_inj {cx c d : Nat} (hc : c < 8) (hd : d < 8) (h : (cx + c) % 64 = (cx + d) % 64) : c = d := by omega

/-! ## One row -/

/-- Does the row byte put a bit on the column? -/
def rowSets (cx : Nat) (b : Byte) (cs : List Nat) (col : Nat) : Bool :=
  cs.any (fun c => b.getLsbD (7 - c) && decide ((cx + c) % 64 = col))

/-- Does the row byte meet a set pixel? -/
def rowHits (fb : Framebuffer) (row cx : Nat) (b : Byte) (cs : List Nat) : Bool :=
  cs.any (fun c => b.getLsbD (7 - c) && fb.pixel row ((cx + c) % 64))

theorem drawBits_spec (row cx : Nat) (b : Byte) (hrow : row < 32) (cs : List Nat) (hn : cs.Nodup)
    (h8 : ∀ c ∈ cs, c < 8) (acc : Framebuffer × Bool) :
    (∀ row' col', (cs.foldl (drawBit row cx b) acc).1.pixel row' col' =
      (acc.1.pixel row' col' ^^ (decide (row' = row) && rowSets cx b cs col'))) ∧
    (cs.foldl (drawBit row cx b) acc).2 = (acc.2 || rowHits acc.1 row cx b cs) := by
  induction cs generalizing acc with
  | nil => simp [rowSets, rowHits]
  | cons c cs ih =>
    obtain ⟨hc, hn⟩ := List.nodup_cons.mp hn
    have hc8 : c < 8 := h8 c (by simp)
    obtain ⟨ih1, ih2⟩ := ih hn (fun d hd => h8 d (by simp [hd])) (drawBit row cx b acc c)
    rw [List.foldl_cons]
    by_cases hb : b.getLsbD (7 - c) = true
    · have hlt : (cx + c) % 64 < 64 := Nat.mod_lt _ (by decide)
      have hother : ∀ d ∈ cs, (cx + d) % 64 ≠ (cx + c) % 64 := fun d hd e =>
        hc (column_inj (h8 d (by simp [hd])) hc8 e ▸ hd)
      constructor
      · intro row' col'
        rw [ih1]
        simp only [drawBit, hb, if_true, pixel_flip _ hrow hlt, rowSets, List.any_cons, Bool.true_and]
        by_cases e1 : row' = row
        · by_cases e2 : (cx + c) % 64 = col'
          · subst e2
            have : (cs.any fun d => b.getLsbD (7 - d) && decide ((cx + d) % 64 = (cx + c) % 64)) = false := by
              simp only [List.any_eq_false]
              intro d hd
              simp [hother d hd]
            simp [e1, this]
          · simp [e1, e2, show ¬(col' = (cx + c) % 64) from fun h => e2 h.symm]
        · simp [e1]
      · rw [ih2]
        simp only [drawBit, hb, if_true, rowHits, List.any_cons, Bool.true_and, Bool.or_assoc]
        congr 2
        rw [Bool.eq_iff_iff]
        simp only [List.any_eq_true, Bool.and_eq_true]
        constructor
        · rintro ⟨d, hd, h1, h2⟩
          refine ⟨d, hd, h1, ?_⟩
          rwa [pixel_flip _ hrow hlt, show decide (row = row ∧ (cx + d) % 64 = (cx + c) % 64) = false by
            simp [hother d hd], Bool.xor_false] at h2
        · rintro ⟨d, hd, h1, h2⟩
          refine ⟨d, hd, h1, ?_⟩
          rwa [pixel_flip _ hrow hlt, show decide (row = row ∧ (cx + d) % 64 = (cx + c) % 64) = false by
            simp [hother d hd], Bool.xor_false]
    · have hb' : b.getLsbD (7 - c) = false := by simpa using hb
      have e : drawBit row cx b acc c = acc := by simp [drawBit, hb']
      rw [e] at ih1 ih2 ⊢
      exact ⟨fun r k => by rw [ih1]; simp [rowSets, hb'], by rw [ih2]; simp [rowHits, hb']⟩

theorem drawRow_spec (row cx : Nat) (b : Byte) (hrow : row < 32) (acc : Framebuffer × Bool) :
    (∀ row' col', (drawRow row cx b acc).1.pixel row' col' =
      (acc.1.pixel row' col' ^^ (decide (row' = row) && rowSets cx b (List.range 8) col'))) ∧
    (drawRow row cx b acc).2 = (acc.2 || rowHits acc.1 row cx b (List.range 8)) :=
  drawBits_spec row cx b hrow _ List.nodup_range (fun _ h => List.mem_range.mp h) acc

/-! ## All rows -/

/-- Does a sprite of rows j .. j + n − 1 put a bit on the pixel? -/
def spriteSets (m : Nat → Byte) (base cx cy j n row col : Nat) : Bool :=
  decide (cy + j ≤ row ∧ row < cy + (j + n)) && rowSets cx (m (base + (row - cy))) (List.range 8) col

theorem spriteSets_outside {m : Nat → Byte} {base cx cy j n row : Nat} (col : Nat)
    (h : ¬(cy + j ≤ row ∧ row < cy + (j + n))) : spriteSets m base cx cy j n row col = false := by
  unfold spriteSets
  rw [decide_eq_false h, Bool.false_and]

theorem drawRows_spec (m : Nat → Byte) (base cx cy n j : Nat) (acc : Framebuffer × Bool) :
    (∀ row col, row < 32 → (drawRows m base cx cy (List.range' j n) acc).1.pixel row col =
      (acc.1.pixel row col ^^ spriteSets m base cx cy j n row col)) ∧
    ((drawRows m base cx cy (List.range' j n) acc).2 = true ↔
      acc.2 = true ∨ ∃ row col, row < 32 ∧ col < 64 ∧ acc.1.pixel row col = true ∧
        spriteSets m base cx cy j n row col = true) := by
  induction n generalizing j acc with
  | zero =>
    constructor
    · intro row col _
      rw [spriteSets_outside col (by omega), Bool.xor_false]
      rfl
    · constructor
      · intro h; exact .inl h
      · rintro (h | ⟨row, col, _, _, _, h⟩)
        · exact h
        · rw [spriteSets_outside col (by omega)] at h
          cases h
  | succ n ih =>
    rw [List.range'_succ, drawRows]
    by_cases hb : 32 ≤ cy + j
    · simp only [hb, if_true]
      constructor
      · intro row col hrow
        rw [spriteSets_outside col (by omega), Bool.xor_false]
      · constructor
        · intro h; exact .inl h
        · rintro (h | ⟨row, col, hr, _, _, h⟩)
          · exact h
          · rw [spriteSets_outside col (by omega)] at h
            cases h
    · simp only [hb, if_false]
      have hrow : cy + j < 32 := by omega
      obtain ⟨d1, d2⟩ := drawRow_spec (cy + j) cx (m (base + j)) hrow acc
      obtain ⟨ih1, ih2⟩ := ih (j + 1) (drawRow (cy + j) cx (m (base + j)) acc)
      have hsplit : ∀ row col, spriteSets m base cx cy j (n + 1) row col =
          ((decide (row = cy + j) && rowSets cx (m (base + j)) (List.range 8) col) ||
            spriteSets m base cx cy (j + 1) n row col) := by
        intro row col
        unfold spriteSets
        by_cases e : row = cy + j
        · subst e
          have h1 : cy + j ≤ cy + j ∧ cy + j < cy + (j + (n + 1)) := by omega
          simp [h1]
        · have h1 : (cy + j ≤ row ∧ row < cy + (j + (n + 1))) ↔ (cy + (j + 1) ≤ row ∧ row < cy + (j + 1 + n)) := by
            omega
          simp [e, h1]
      have hdisj : ∀ row col, row = cy + j → spriteSets m base cx cy (j + 1) n row col = false := by
        intro row col e
        exact spriteSets_outside col (by omega)
      constructor
      · intro row col hr
        rw [ih1 row col hr, d1, hsplit]
        by_cases e : row = cy + j
        · rw [hdisj row col e]; simp [e]
        · simp [e]
      · rw [ih2, d2, Bool.or_eq_true]
        constructor
        · rintro ((h | h) | ⟨row, col, hr, hc, hp, hs⟩)
          · exact .inl h
          · simp only [rowHits, List.any_eq_true, Bool.and_eq_true] at h
            obtain ⟨c, hc, hbit, hp⟩ := h
            refine .inr ⟨cy + j, (cx + c) % 64, hrow, Nat.mod_lt _ (by decide), hp, ?_⟩
            rw [hsplit]
            simp only [decide_true, Bool.true_and, Bool.or_eq_true]
            refine .inl (List.any_eq_true.mpr ⟨c, hc, ?_⟩)
            simp [hbit]
          · have e : row ≠ cy + j := fun e => by simp [hdisj row col e] at hs
            rw [d1] at hp
            simp only [e, decide_false, Bool.false_and, Bool.xor_false] at hp
            exact .inr ⟨row, col, hr, hc, hp, by rw [hsplit]; simp [hs]⟩
        · rintro (h | ⟨row, col, hr, hc, hp, hs⟩)
          · exact .inl (.inl h)
          · rw [hsplit, Bool.or_eq_true] at hs
            rcases hs with hs | hs
            · simp only [Bool.and_eq_true, decide_eq_true_eq, rowSets, List.any_eq_true] at hs
              obtain ⟨rfl, c, hc8, hbit, rfl⟩ := hs
              refine .inl (.inr ?_)
              simp only [rowHits, List.any_eq_true, Bool.and_eq_true]
              exact ⟨c, hc8, hbit, hp⟩
            · have e : row ≠ cy + j := fun e => by simp [hdisj row col e] at hs
              refine .inr ⟨row, col, hr, hc, ?_, hs⟩
              rw [d1]
              simpa [e] using hp

/-- The drawing of DRW, pixel by pixel, and its collision, without loops. -/
theorem drawing_spec (s : State) (x y : RegIdx) (n : BitVec 4) :
    (∀ row col, row < 32 → (s.drawing x y n).1.pixel row col =
      (s.fb.pixel row col ^^ spriteSets s.byteAt (s.transferAddr 0) (s.spriteCol x) (s.spriteRow y) 0 n.toNat row col)) ∧
    ((s.drawing x y n).2 = true ↔ ∃ row col, row < 32 ∧ col < 64 ∧ s.fb.pixel row col = true ∧
      spriteSets s.byteAt (s.transferAddr 0) (s.spriteCol x) (s.spriteRow y) 0 n.toNat row col = true) := by
  have h := drawRows_spec s.byteAt (s.transferAddr 0) (s.spriteCol x) (s.spriteRow y) n.toNat 0 (s.fb, false)
  simpa [State.drawing, List.range_eq_range'] using h

/-- The loop-free reading of a sprite bit is the one claims use. -/
theorem spriteSets_iff (s : State) (x y : RegIdx) (n : BitVec 4) {row col : Nat} (hr : row < 32) :
    spriteSets s.byteAt (s.transferAddr 0) (s.spriteCol x) (s.spriteRow y) 0 n.toNat row col = true ↔
      SpriteSets s x y n row col := by
  simp only [spriteSets, rowSets, Bool.and_eq_true, decide_eq_true_eq, List.any_eq_true, List.mem_range, SpriteSets,
    State.transferAddr]
  constructor
  · rintro ⟨⟨h1, h2⟩, c, hc, hb, hcol⟩
    have : s.spriteRow y = (s.reg y).toNat % 32 := rfl
    refine ⟨row - s.spriteRow y, c, by omega, hc, hr, by omega, hcol.symm, ?_⟩
    simpa using hb
  · rintro ⟨r, c, hn, hc, _, hrow, hcol, hb⟩
    have : s.spriteRow y = (s.reg y).toNat % 32 := rfl
    refine ⟨by omega, c, hc, ?_, hcol.symm⟩
    have : row - s.spriteRow y = r := by omega
    simpa [this] using hb

end Sys2Proof.Machine
end

