-- ==== Sys2Proof/Laws/Frame.lean ====
section
/-! SUPPORT. Frames: what each operation, each instruction and each step may change. A claim that something is unchanged
cites these instead of unfolding a meaning. -/

namespace Sys2Proof.Machine

/-! ## Composing frames -/

theorem ChangesOnly.refl (s : State) (ps : List Part) : ChangesOnly s s ps := fun p _ => by cases p <;> rfl

theorem ChangesOnly.mono {s t : State} {ps qs : List Part} (h : ChangesOnly s t ps) (hsub : ps ⊆ qs) :
    ChangesOnly s t qs := fun p hp => h p (fun hq => hp (hsub hq))

theorem Part.same_trans {s t u : State} {p : Part} (h1 : p.same s t) (h2 : p.same t u) : p.same s u := by
  cases p <;> exact Eq.trans h2 h1

theorem ChangesOnly.trans {s t u : State} {ps qs : List Part} (h1 : ChangesOnly s t ps) (h2 : ChangesOnly t u qs) :
    ChangesOnly s u (ps ++ qs) := fun p hp =>
  Part.same_trans (h1 p (fun h => hp (List.mem_append_left _ h))) (h2 p (fun h => hp (List.mem_append_right _ h)))

/-! ## Operations -/

section Operations
variable (s : State)

theorem changesOnly_setReg (r : RegIdx) (u : Byte) : ChangesOnly s (s.setReg r u) [.reg r] := fun p hp => by
  cases p with
  | reg q => exact State.setReg_reg_of_ne s u (by simpa using hp)
  | _ => rfl

theorem changesOnly_setRegFlag (x : RegIdx) (a f : Byte) : ChangesOnly s (s.setRegFlag x a f) [.reg x, .reg vf] :=
  (changesOnly_setReg s x a).trans (changesOnly_setReg _ vf f)

theorem changesOnly_setI (w : Word) : ChangesOnly s (s.setI w) [.index] := fun p hp => by
  cases p <;> first | rfl | simp at hp

theorem changesOnly_setPc (w : Word) : ChangesOnly s (s.setPc w) [.pc] := fun p hp => by
  cases p <;> first | rfl | simp at hp

theorem changesOnly_skipIf (c : Bool) : ChangesOnly s (s.skipIf c) [.pc] := fun p hp => by
  cases p <;> first | rfl | simp at hp

theorem changesOnly_setDt (u : Byte) : ChangesOnly s (s.setDt u) [.delay] := fun p hp => by
  cases p <;> first | rfl | simp at hp

theorem changesOnly_setSt (u : Byte) : ChangesOnly s (s.setSt u) [.sound] := fun p hp => by
  cases p <;> first | rfl | simp at hp

theorem changesOnly_report (w : Word) : ChangesOnly s (s.report w) [.reports] := fun p hp => by
  cases p <;> first | rfl | simp at hp

theorem changesOnly_show (fb : Framebuffer) : ChangesOnly s (s.show fb) [.framebuffer, .dirty] := fun p hp => by
  cases p <;> first | rfl | simp at hp

theorem changesOnly_stack (ws : List Word) : ChangesOnly s { s with stack := ws } [.stack] := fun p hp => by
  cases p <;> first | rfl | simp at hp

theorem changesOnly_beginStep : ChangesOnly s s.beginStep aroundParts := fun p hp => by
  cases p <;> first | rfl | simp [aroundParts] at hp

theorem changesOnly_endStep : ChangesOnly s s.endStep [.delay, .sound] := fun p hp => by
  cases p <;> first | rfl | simp at hp

theorem changesOnly_atExecute : ChangesOnly s s.atExecute (.pc :: aroundParts) := fun p hp => by
  cases p <;> first | rfl | simp [aroundParts] at hp

/-- Bytes placed from `a` on leave every byte outside them alone. -/
theorem read_placeBytes_outside (f : Font) (m : Memory) (a : Nat) (us : List Byte) {c : Nat}
    (h : c < a ∨ a + us.length ≤ c) : (placeBytes f m a us).read f c = m.read f c := by
  induction us generalizing m a with
  | nil => rfl
  | cons u us ih =>
    simp only [List.length_cons] at h
    rw [placeBytes, ih _ (a + 1) (by omega)]
    by_cases ha : a < Config.memSize
    · simp only [placeByte, ha, if_true]
      exact Memory.read_write_of_ne m u (by omega)
    · simp [placeByte, ha]

theorem not_mem_bytesFrom {a n c : Nat} (h : Part.byte c ∉ bytesFrom a n) : c < a ∨ a + n ≤ c := by
  by_contra hc
  refine h (List.mem_map.mpr ⟨c - a, List.mem_range.mpr (by omega), ?_⟩)
  congr 1
  omega

theorem changesOnly_placeBytes (a : Nat) (us : List Byte) :
    ChangesOnly s { s with mem := placeBytes s.config.font s.mem a us } (bytesFrom a us.length) := fun p hp => by
  cases p with
  | byte c => exact read_placeBytes_outside s.config.font s.mem a us (not_mem_bytesFrom hp)
  | _ => rfl

/-- A block store that completes changed only the bytes it stored to. -/
theorem changesOnly_storeBytes {t : State} {a : Nat} {us : List Byte} (h : s.storeBytes a us = .ok t) :
    ChangesOnly s t (bytesFrom a us.length) := by
  cases us with
  | nil => cases h; exact ChangesOnly.refl s _
  | cons u us =>
    rcases s.storeBytes_cases a (u :: us) (by simp) with ⟨_, e⟩ | ⟨_, e⟩ <;> rw [e] at h
    · cases h; exact changesOnly_placeBytes s a (u :: us)
    · cases h

/-- A block load that completes changed only its registers. -/
theorem changesOnly_loadRegs {t : State} (ks : List RegIdx) (h : s.loadRegs ks = .ok t) :
    ChangesOnly s t (ks.map .reg) := by
  induction ks generalizing s with
  | nil => cases h; exact ChangesOnly.refl _ _
  | cons k ks ih =>
    rw [State.loadRegs] at h
    cases e : s.memRead (s.i.toNat + k.toNat) with
    | error f => rw [e] at h; cases h
    | ok u =>
      rw [e] at h
      exact ((changesOnly_setReg s k u).trans (ih _ h)).mono (by simp)

end Operations

/-! ## Instructions -/

/-- The parts an instruction may change when it completes (R18 to R27). -/
def Instr.parts (i : Instr) (s : State) : List Part :=
  match i with
  | .cls => [.framebuffer, .dirty]
  | .ret => [.stack, .pc]
  | .jp _ => [.pc]
  | .call _ => [.stack, .pc]
  | .seImm _ _ => [.pc]
  | .sneImm _ _ => [.pc]
  | .seReg _ _ => [.pc]
  | .ldImm x _ => [.reg x]
  | .addImm x _ => [.reg x]
  | .ldReg x _ => [.reg x]
  | .orReg x _ => [.reg x]
  | .andReg x _ => [.reg x]
  | .xorReg x _ => [.reg x]
  | .addReg x _ => [.reg x, .reg vf]
  | .sub x _ => [.reg x, .reg vf]
  | .shr x _ => [.reg x, .reg vf]
  | .subn x _ => [.reg x, .reg vf]
  | .shl x _ => [.reg x, .reg vf]
  | .sneReg _ _ => [.pc]
  | .ldI _ => [.index]
  | .jpOff _ => [.pc]
  | .rnd x _ => [.reg x]
  | .drw _ _ _ => [.framebuffer, .dirty, .reg vf]
  | .skp _ => [.pc]
  | .sknp _ => [.pc]
  | .ldVxDt x => [.reg x]
  | .ldK x => [.reg x, .pc]
  | .ldDt _ => [.delay]
  | .ldSt _ => [.sound]
  | .addI _ => [.index, .reg vf]
  | .ldF _ => [.index]
  | .ldB _ => bytesFrom (s.transferAddr 0) 3
  | .ldMemStore x => bytesFrom (s.transferAddr 0) (x.toNat + 1)
  | .ldMemLoad x => regsTo x

theorem next_inj {s t : State} (h : (Host.Outcome.next s : Result) = .next t) : t = s := by cases h; rfl

theorem orRaise_next {r : Except Fault State} {t : State} (h : orRaise r = .next t) : r = .ok t := by
  cases r with
  | ok u => exact congrArg Except.ok (next_inj h).symm
  | error f => cases h

/-- What an instruction changes when it completes: at most its parts. -/
theorem exec_changesOnly (i : Instr) {s t : State} (h : exec i s = .next t) : ChangesOnly s t (Instr.parts i s) := by
  cases i with
  | cls => cases next_inj h; exact changesOnly_show s _
  | ret =>
    rcases s.pop_cases with ⟨_, e⟩ | ⟨ws, w, _, e⟩ <;> simp only [exec, execRet, e] at h
    · cases h
    · cases next_inj h; exact (changesOnly_stack s ws).trans (changesOnly_setPc _ w)
  | call a =>
    by_cases hd : s.stack.length < s.config.stackDepth
    · simp only [exec, execCall, State.push_ok s.pc hd] at h
      cases next_inj h
      exact (changesOnly_stack s _).trans (changesOnly_setPc _ _)
    · simp only [exec, execCall, State.push_error s.pc (Nat.not_lt.mp hd)] at h
      cases h
  | jp a => cases next_inj h; exact changesOnly_setPc s _
  | jpOff a => cases next_inj h; exact changesOnly_setPc s _
  | seImm x nn => cases next_inj h; exact changesOnly_skipIf s _
  | sneImm x nn => cases next_inj h; exact changesOnly_skipIf s _
  | seReg x y => cases next_inj h; exact changesOnly_skipIf s _
  | sneReg x y => cases next_inj h; exact changesOnly_skipIf s _
  | skp x => cases next_inj h; exact changesOnly_skipIf s _
  | sknp x => cases next_inj h; exact changesOnly_skipIf s _
  | ldImm x nn => cases next_inj h; exact changesOnly_setReg s x _
  | addImm x nn => cases next_inj h; exact changesOnly_setReg s x _
  | ldReg x y => cases next_inj h; exact changesOnly_setReg s x _
  | orReg x y => cases next_inj h; exact changesOnly_setReg s x _
  | andReg x y => cases next_inj h; exact changesOnly_setReg s x _
  | xorReg x y => cases next_inj h; exact changesOnly_setReg s x _
  | rnd x nn => cases next_inj h; exact changesOnly_setReg s x _
  | ldVxDt x => cases next_inj h; exact changesOnly_setReg s x _
  | addReg x y => cases next_inj h; exact changesOnly_setRegFlag s x _ _
  | sub x y => cases next_inj h; exact changesOnly_setRegFlag s x _ _
  | subn x y => cases next_inj h; exact changesOnly_setRegFlag s x _ _
  | shr x y => cases next_inj h; exact changesOnly_setRegFlag s x _ _
  | shl x y => cases next_inj h; exact changesOnly_setRegFlag s x _ _
  | ldI a => cases next_inj h; exact changesOnly_setI s _
  | ldF x => cases next_inj h; exact changesOnly_setI s _
  | ldDt x => cases next_inj h; exact changesOnly_setDt s _
  | ldSt x => cases next_inj h; exact changesOnly_setSt s _
  | addI x =>
    simp only [exec, execAddI] at h
    split at h
    · cases h
    · cases next_inj h; exact (changesOnly_setI s _).trans (changesOnly_setReg _ vf _)
  | drw x y n =>
    simp only [exec, execDrw] at h
    split at h
    · cases h
    · cases next_inj h; exact (changesOnly_show s _).trans (changesOnly_setReg _ vf _)
  | ldK x =>
    cases next_inj h
    unfold State.awaitKey
    split
    · exact (changesOnly_setReg s x _).mono (by simp [Instr.parts])
    · exact (changesOnly_setPc s _).mono (by simp [Instr.parts])
  | ldB x => exact changesOnly_storeBytes s (orRaise_next h)
  | ldMemStore x =>
    have := changesOnly_storeBytes s (orRaise_next h)
    simpa [Instr.parts] using this
  | ldMemLoad x => exact changesOnly_loadRegs s _ (orRaise_next h)

/-- No instruction is refused (every one has its meaning). -/
theorem exec_not_refused (i : Instr) (s : State) (r : Refusal) : exec i s ≠ .refused r := by
  have hor : ∀ e : Except Fault State, orRaise e ≠ .refused r := fun e h => by cases e <;> cases h
  cases i with
  | ret => rcases s.pop_cases with ⟨_, e⟩ | ⟨ws, w, _, e⟩ <;> simp [exec, execRet, e, raise]
  | call a =>
    simp only [exec, execCall]
    split <;> simp [raise]
  | addI x =>
    simp only [exec, execAddI]
    split <;> simp [raise]
  | drw x y n =>
    simp only [exec, execDrw]
    split <;> simp [raise]
  | ldB x => exact hor _
  | ldMemStore x => exact hor _
  | ldMemLoad x => exact hor _
  | _ => intro h; cases h

/-! ## Instructions that can fault: what they did when they complete -/

theorem exec_ret_next {s t : State} (h : exec .ret s = .next t) :
    ∃ ws w, s.stack = ws ++ [w] ∧ t = ({ s with stack := ws } : State).setPc w := by
  rcases s.pop_cases with ⟨_, e⟩ | ⟨ws, w, hs, e⟩ <;> simp only [exec, execRet, e] at h
  · cases h
  · exact ⟨ws, w, hs, next_inj h⟩

theorem exec_call_next {s t : State} {a : Addr12} (h : exec (.call a) s = .next t) :
    s.stack.length < s.config.stackDepth ∧ t = ({ s with stack := s.stack ++ [s.pc] } : State).setPc (addr16 a) := by
  by_cases hd : s.stack.length < s.config.stackDepth
  · simp only [exec, execCall, State.push_ok s.pc hd] at h
    exact ⟨hd, next_inj h⟩
  · simp only [exec, execCall, State.push_error s.pc (Nat.not_lt.mp hd)] at h
    cases h

/-- DRW completes when its sprite bytes exist, with this state. -/
theorem exec_drw_of_range (s : State) (x y : RegIdx) (n : BitVec 4)
    (h : s.i.toNat + n.toNat ≤ Config.memSize ∨ n.toNat = 0) :
    exec (.drw x y n) s =
      .next ((s.show (s.drawing x y n).1).setReg vf (collisionFlag (s.drawing x y n).2)) := by
  simp [exec, execDrw, State.transferAddr, firstOutOfRange_none h]

/-- Every instruction that completes keeps memory canonical. -/
theorem exec_mem_wf (i : Instr) {s t : State} (h : exec i s = .next t) (hm : s.memWf = true) :
    t.memWf = true := by
  have hst : ∀ (a : Nat) (us : List Byte), us ≠ [] → s.storeBytes a us = .ok t → t.memWf = true := by
    intro a us hne h
    rcases s.storeBytes_cases a us hne with ⟨_, e⟩ | ⟨_, e⟩ <;> rw [e] at h <;> cases h
    exact Memory.wf_placeBytes hm a us
  cases i with
  | ret => obtain ⟨_, _, _, rfl⟩ := exec_ret_next h; exact hm
  | call a => obtain ⟨_, rfl⟩ := exec_call_next h; exact hm
  | addI x =>
    simp only [exec, execAddI] at h
    split at h
    · cases h
    · cases next_inj h; exact hm
  | drw x y n =>
    simp only [exec, execDrw] at h
    split at h
    · cases h
    · cases next_inj h; exact hm
  | ldK x =>
    cases next_inj h
    unfold State.awaitKey
    split <;> exact hm
  | ldB x => exact hst _ _ (by simp [bcdDigits]) (orRaise_next h)
  | ldMemStore x => exact hst _ _ (by simp [regsUpTo_ne_nil]) (orRaise_next h)
  | ldMemLoad x =>
    have h := orRaise_next h
    by_cases hc : s.i.toNat + x.toNat < Config.memSize
    · obtain ⟨v, e, _⟩ := s.loadRegs_ok (regsUpTo x) (fun k hk => by have := mem_regsUpTo.mp hk; omega)
      rw [e] at h; cases h; exact hm
    · rw [s.loadRegs_error x (Nat.not_lt.mp hc)] at h; cases h
  | _ => cases next_inj h; exact hm

/-! ## The step -/

theorem executeWord_instr {w : Word} {i : Instr} {s : State} (h : decodeWith s.config.strictSkipReg w = .instr i) :
    executeWord w s = exec i s := by
  simp [executeWord, h]

theorem executeWord_reject {w : Word} {r : Reject} {s : State}
    (h : decodeWith s.config.strictSkipReg w = .reject r) : executeWord w s = .next (s.report w) := by
  simp [executeWord, h]

/-- The word at PC, executed as the step does, is the instruction it decodes to. -/
theorem executeWord_decoded {s : State} {i : Instr} (h : s.decoded = .instr i) :
    executeWord s.wordAtPc s.atExecute = exec i s.atExecute := executeWord_instr h

theorem runCycle_fetchable {s : State} (h : Fetchable s) :
    runCycle s = onNext State.endStep (executeWord s.wordAtPc s.atExecute) := by
  have hf : Fetchable s.beginStep := h
  rw [runCycle, State.fetch_ok hf]
  rfl

theorem step_of_fetchable {s : State} (hn : s.fault = none) (h : Fetchable s) :
    step s = onNext State.endStep (executeWord s.wordAtPc s.atExecute) := by
  simp only [step, stepCore, hn]
  exact runCycle_fetchable h

theorem step_of_not_fetchable {s : State} (hn : s.fault = none) (h : ¬ Fetchable s) :
    step s = .fault (.memoryOutOfRange (max s.pc.toNat Config.memSize)) := by
  have hf : ¬ Fetchable s.beginStep := h
  simp only [step, stepCore, hn, runCycle, State.fetch_error hf, raise]
  rfl

theorem step_of_halted {s : State} {f : Fault} (h : s.fault = some f) : step s = .fault f := by
  simp [step, stepCore, h]

/-- Everything a step that answers a next state can have done. -/
theorem step_next_cases {s t : State} (h : step s = .next t) :
    s.fault = none ∧ Fetchable s ∧ ∃ u, executeWord s.wordAtPc s.atExecute = .next u ∧ t = u.endStep := by
  cases hn : s.fault with
  | some f => rw [step_of_halted hn] at h; cases h
  | none =>
    by_cases hf : Fetchable s
    · rw [step_of_fetchable hn hf] at h
      cases e : executeWord s.wordAtPc s.atExecute with
      | next u => rw [e] at h; exact ⟨rfl, hf, u, rfl, next_inj h⟩
      | fault f => rw [e] at h; cases h
      | refused r => rw [e] at h; cases h
    · rw [step_of_not_fetchable hn hf] at h; cases h

/-- The same, split by what the word is. -/
theorem step_next_instr {s t : State} (h : step s = .next t) :
    (∃ i u, s.decoded = .instr i ∧ exec i s.atExecute = .next u ∧ t = u.endStep) ∨
    (∃ r, s.decoded = .reject r ∧ t = (s.atExecute.report s.wordAtPc).endStep) := by
  obtain ⟨_, _, u, hu, rfl⟩ := step_next_cases h
  cases hd : s.decoded with
  | instr i => rw [executeWord_decoded hd] at hu; exact .inl ⟨i, u, rfl, hu, rfl⟩
  | reject r => rw [executeWord_reject (s := s.atExecute) hd] at hu; cases next_inj hu; exact .inr ⟨r, rfl, rfl⟩

/-- A step that runs an instruction changes at most the instruction's parts, PC, the timers and the inputs. -/
theorem step_changesOnly {s t : State} {i : Instr} (h : step s = .next t) (hd : s.decoded = .instr i) :
    ChangesOnly s t (Instr.parts i s ++ .pc :: aroundParts) := by
  rcases step_next_instr h with ⟨j, u, hj, hu, rfl⟩ | ⟨r, hr, _⟩
  · rw [hd] at hj
    cases hj
    have h1 := changesOnly_atExecute s
    have h2 : ChangesOnly s.atExecute u (Instr.parts i s) := exec_changesOnly i hu
    have h3 := changesOnly_endStep u
    refine ((h1.trans h2).trans h3).mono ?_
    intro p hp
    simp only [aroundParts, List.mem_append, List.mem_cons, List.not_mem_nil, or_false] at hp ⊢
    tauto
  · rw [hd] at hr; cases hr

end Sys2Proof.Machine
end

