-- ==== Sys2Proof/Laws/Operands.lean ====
section
/-! SUPPORT. The operand forms as numbers. -/

namespace Sys2Proof.Machine

theorem addr16_toNat (nnn : Addr12) : (addr16 nnn).toNat = nnn.toNat := by
  have := nnn.isLt
  simp only [addr16, BitVec.toNat_setWidth]
  omega

/-- The target of JP_OFF is the exact sum: it never wraps (R66). -/
theorem State.offsetTarget_toNat (s : State) (nnn : Addr12) :
    (s.offsetTarget nnn).toNat = nnn.toNat + (s.reg (s.offsetReg nnn)).toNat := by
  have h1 := addr16_toNat nnn
  have := nnn.isLt
  have := (s.reg (s.offsetReg nnn)).isLt
  rw [State.offsetTarget, BitVec.toNat_add, h1, BitVec.toNat_setWidth]
  omega

/-- The glyph address of a byte, by its low nibble (R76). -/
theorem glyphAddr_toNat (f : Font) (u : Byte) : (glyphAddr f u).toNat = f.base.toNat + 5 * (u.toNat % 16) := by
  have hb := f.base.isLt
  have hu : (u &&& 0x0F#8).toNat = u.toNat % 16 := by
    rw [BitVec.toNat_and]
    exact Nat.and_two_pow_sub_one_eq_mod u.toNat 4
  simp only [glyphAddr, BitVec.toNat_add, BitVec.toNat_mul, BitVec.toNat_setWidth, hu, BitVec.toNat_ofNat]
  omega

/-- The key compare is on the whole byte (R97). -/
theorem key_eq_iff (k : Key) (b : Byte) : (BitVec.setWidth 8 k == b) = true ↔ k.toNat = b.toNat := by
  have := k.isLt
  rw [beq_iff_eq, ← BitVec.toNat_inj, BitVec.toNat_setWidth, Nat.mod_eq_of_lt (by omega)]

theorem State.keyIs_some {s : State} {k : Key} (h : s.latch.key = some k) (x : RegIdx) :
    s.keyIs x = true ↔ k.toNat = (s.reg x).toNat := by
  simp only [State.keyIs, h]
  exact key_eq_iff k _

theorem State.keyIs_none {s : State} (h : s.latch.key = none) (x : RegIdx) : s.keyIs x = false := by
  simp [State.keyIs, h]

end Sys2Proof.Machine
end

