-- ==== Sys2Proof/Laws/PerInstr.lean ====
section
/-! SUPPORT. The family RoundTrip, one lemma per instruction: its word decodes to it, with every operand at every value. -/

namespace Sys2Proof.Laws.RoundTrip

/-- The word of a well-formed instruction decodes to that instruction, under either value of `P_STRICT_SKIP_REG`. -/
def Statement (i : Instr) : Prop := i.wf = true → ∀ strict, decodeWith strict (encode i) = .instr i

theorem cls : Statement .cls := fun _ => by decide

theorem ret : Statement .ret := fun _ => by decide

theorem jp (nnn : Addr12) : Statement (.jp nnn) := fun _ strict => by
  simp [encode, decodeWith]

theorem call (nnn : Addr12) : Statement (.call nnn) := fun _ strict => by
  simp [encode, decodeWith]

theorem seImm (x : RegIdx) (nn : Byte) : Statement (.seImm x nn) := fun _ strict => by
  simp [encode, decodeWith]

theorem sneImm (x : RegIdx) (nn : Byte) : Statement (.sneImm x nn) := fun _ strict => by
  simp [encode, decodeWith]

theorem seReg (x : RegIdx) (y : RegIdx) : Statement (.seReg x y) := fun _ strict => by
  simp [encode, decodeWith]

theorem ldImm (x : RegIdx) (nn : Byte) : Statement (.ldImm x nn) := fun _ strict => by
  simp [encode, decodeWith]

theorem addImm (x : RegIdx) (nn : Byte) : Statement (.addImm x nn) := fun _ strict => by
  simp [encode, decodeWith]

theorem ldReg (x : RegIdx) (y : RegIdx) : Statement (.ldReg x y) := fun _ strict => by
  simp [encode, decodeWith, decodeClass8]

theorem orReg (x : RegIdx) (y : RegIdx) : Statement (.orReg x y) := fun _ strict => by
  simp [encode, decodeWith, decodeClass8]

theorem andReg (x : RegIdx) (y : RegIdx) : Statement (.andReg x y) := fun _ strict => by
  simp [encode, decodeWith, decodeClass8]

theorem xorReg (x : RegIdx) (y : RegIdx) : Statement (.xorReg x y) := fun _ strict => by
  simp [encode, decodeWith, decodeClass8]

theorem addReg (x : RegIdx) (y : RegIdx) : Statement (.addReg x y) := fun _ strict => by
  simp [encode, decodeWith, decodeClass8]

theorem sub (x : RegIdx) (y : RegIdx) : Statement (.sub x y) := fun _ strict => by
  simp [encode, decodeWith, decodeClass8]

theorem shr (x : RegIdx) (y : RegIdx) : Statement (.shr x y) := fun _ strict => by
  simp [encode, decodeWith, decodeClass8]

theorem subn (x : RegIdx) (y : RegIdx) : Statement (.subn x y) := fun _ strict => by
  simp [encode, decodeWith, decodeClass8]

theorem shl (x : RegIdx) (y : RegIdx) : Statement (.shl x y) := fun _ strict => by
  simp [encode, decodeWith, decodeClass8]

theorem sneReg (x : RegIdx) (y : RegIdx) : Statement (.sneReg x y) := fun _ strict => by
  simp [encode, decodeWith]

theorem ldI (nnn : Addr12) : Statement (.ldI nnn) := fun _ strict => by
  simp [encode, decodeWith]

theorem jpOff (nnn : Addr12) : Statement (.jpOff nnn) := fun _ strict => by
  simp [encode, decodeWith]

theorem rnd (x : RegIdx) (nn : Byte) : Statement (.rnd x nn) := fun _ strict => by
  simp [encode, decodeWith]

theorem drw (x : RegIdx) (y : RegIdx) (n : BitVec 4) : Statement (.drw x y n) := fun _ strict => by
  simp [encode, decodeWith]

theorem skp (x : RegIdx) : Statement (.skp x) := fun _ strict => by
  simp [encode, decodeWith, decodeClassE]

theorem sknp (x : RegIdx) : Statement (.sknp x) := fun _ strict => by
  simp [encode, decodeWith, decodeClassE]

theorem ldVxDt (x : RegIdx) : Statement (.ldVxDt x) := fun _ strict => by
  simp [encode, decodeWith, decodeClassF]

theorem ldK (x : RegIdx) : Statement (.ldK x) := fun _ strict => by
  simp [encode, decodeWith, decodeClassF]

theorem ldDt (x : RegIdx) : Statement (.ldDt x) := fun _ strict => by
  simp [encode, decodeWith, decodeClassF]

theorem ldSt (x : RegIdx) : Statement (.ldSt x) := fun _ strict => by
  simp [encode, decodeWith, decodeClassF]

theorem addI (x : RegIdx) : Statement (.addI x) := fun _ strict => by
  simp [encode, decodeWith, decodeClassF]

theorem ldF (x : RegIdx) : Statement (.ldF x) := fun _ strict => by
  simp [encode, decodeWith, decodeClassF]

theorem ldB (x : RegIdx) : Statement (.ldB x) := fun _ strict => by
  simp [encode, decodeWith, decodeClassF]

theorem ldMemStore (x : RegIdx) : Statement (.ldMemStore x) := fun _ strict => by
  simp [encode, decodeWith, decodeClassF]

theorem ldMemLoad (x : RegIdx) : Statement (.ldMemLoad x) := fun _ strict => by
  simp [encode, decodeWith, decodeClassF]

end Sys2Proof.Laws.RoundTrip
end

