-- ==== Sys2Proof/Tests/Slice0.lean ====
section
/-! SUPPORT. Tests. Expected values come from the spec's own vectors (spec/95_test_vectors.md, T and W numbers) or from its
rules by hand; witnesses show that the hypotheses of the statements can be met. One step each. -/

namespace Sys2Proof.Tests

open Sys2Proof.Machine

/-! ## Helpers -/

/-- The default conditions of the spec's vectors: both flags false, BeforeExecute, one announced input with no key, no
tick and rnd = 0. -/
def base : State :=
  { State.reset with
    config := { State.reset.config with shiftCopyVY := false, jumpOffsetVX := false, timerPhase := .beforeExecute },
    inputs := [{ key := none, tick := false, rnd := 0#8 }] }

/-- Registers set one by one. -/
def withRegs (s : State) (l : List (RegIdx × Byte)) : State := l.foldl (fun t p => t.setReg p.1 p.2) s

/-- Bytes of memory from an address on. -/
def withBytes (s : State) (a : Nat) (us : List Byte) : State := { s with mem := placeBytes s.config.font s.mem a us }

/-- The announced input. -/
def withInput (s : State) (key : Option Key) (tick : Bool) (rnd : Byte) : State :=
  { s with inputs := [{ key := key, tick := tick, rnd := rnd }] }

/-- One step at a word placed at PC. -/
def run (w : Nat) (s : State) : Result := step (s.withFetchWord 16 w)

/-- Something of the next state. -/
def see {α : Type} (f : State → α) : Result → Option α
  | .next t => some (f t)
  | .fault _ => none
  | .refused _ => none

/-- The fault a step ended in. -/
def faulted : Result → Option Fault
  | .next _ => none
  | .fault f => some f
  | .refused _ => none

/-- Did it complete? -/
def completes (r : Result) : Bool := (see (fun _ => ()) r).isSome

theorem next_of_completes {r : Result} (h : completes r = true) : ∃ t, r = .next t := by
  cases r with
  | next t => exact ⟨t, rfl⟩
  | fault f => cases h
  | refused f => cases h

theorem fault_of_faulted {r : Result} {f : Fault} (h : faulted r = some f) : r = .fault f := by
  cases r with
  | next t => cases h
  | fault g => cases h; rfl
  | refused g => cases h

/-! ## Well-formedness: an ill-formed term for each check -/

theorem smoke_stack_depth_zero_refused : stackDepthWf 0 = false := by decide
theorem smoke_font_base_too_high_refused : fontBaseWf 0x1B1 = false := by decide
theorem smoke_font_of_79_bytes_refused : fontGlyphsWf (fontGlyphs.drop 1) = false := by decide
theorem smoke_oversize_rom_refused : romWf (List.replicate 3585 0#8) = false :=
  decide_eq_false (by rw [List.length_replicate]; decide)
theorem smoke_parameters_accepted :
    stackDepthWf stackDepth = true ∧ fontBaseWf fontBase.toNat = true ∧ fontGlyphsWf fontGlyphs = true := by decide
theorem smoke_longest_rom_accepted : romWf (List.replicate 3584 0#8) = true :=
  decide_eq_true (by rw [List.length_replicate]; decide)

theorem smoke_configuration_accepted : State.reset.config.wf = true := by decide
theorem smoke_configuration_without_stack_refused :
    ({ State.reset.config with stackDepth := 0 } : Configuration).wf = false := by decide
theorem smoke_configuration_font_over_program_refused :
    ({ State.reset.config with font := { base := 0x1B1#12, glyphs := fontGlyphs } } : Configuration).wf = false := by decide
theorem smoke_configuration_short_font_refused :
    ({ State.reset.config with font := { base := 0x050#12, glyphs := [] } } : Configuration).wf = false := by decide

/-! ## Decoding: one word for every constructor, from R51 -/

theorem test_decode_control :
    decode 0x00EE#16 = .instr .ret ∧ decode 0x1234#16 = .instr (.jp 0x234#12) ∧
    decode 0x2300#16 = .instr (.call 0x300#12) ∧ decode 0xB312#16 = .instr (.jpOff 0x312#12) ∧
    decode 0x342A#16 = .instr (.seImm 4#4 0x2A#8) ∧ decode 0x442A#16 = .instr (.sneImm 4#4 0x2A#8) ∧
    decode 0x5120#16 = .instr (.seReg 1#4 2#4) ∧ decode 0x9120#16 = .instr (.sneReg 1#4 2#4) := by decide
theorem test_decode_register_immediate :
    decode 0x6A7B#16 = .instr (.ldImm 0xA#4 0x7B#8) ∧ decode 0x7320#16 = .instr (.addImm 3#4 0x20#8) ∧
    decode 0xA300#16 = .instr (.ldI 0x300#12) ∧ decode 0xC10F#16 = .instr (.rnd 1#4 0x0F#8) ∧
    decode 0xF11E#16 = .instr (.addI 1#4) ∧ decode 0xF229#16 = .instr (.ldF 2#4) := by decide
theorem test_decode_alu :
    decode 0x8120#16 = .instr (.ldReg 1#4 2#4) ∧ decode 0x8121#16 = .instr (.orReg 1#4 2#4) ∧
    decode 0x8122#16 = .instr (.andReg 1#4 2#4) ∧ decode 0x8123#16 = .instr (.xorReg 1#4 2#4) ∧
    decode 0x8124#16 = .instr (.addReg 1#4 2#4) ∧ decode 0x8565#16 = .instr (.sub 5#4 6#4) ∧
    decode 0x8126#16 = .instr (.shr 1#4 2#4) ∧ decode 0x8127#16 = .instr (.subn 1#4 2#4) ∧
    decode 0x812E#16 = .instr (.shl 1#4 2#4) := by decide
theorem test_decode_memory_timers_keypad_display :
    decode 0xF255#16 = .instr (.ldMemStore 2#4) ∧ decode 0xF265#16 = .instr (.ldMemLoad 2#4) ∧
    decode 0xFA33#16 = .instr (.ldB 0xA#4) ∧ decode 0xF307#16 = .instr (.ldVxDt 3#4) ∧
    decode 0xF315#16 = .instr (.ldDt 3#4) ∧ decode 0xF318#16 = .instr (.ldSt 3#4) ∧
    decode 0xF00A#16 = .instr (.ldK 0#4) ∧ decode 0xE19E#16 = .instr (.skp 1#4) ∧
    decode 0xE1A1#16 = .instr (.sknp 1#4) ∧ decode 0x00E0#16 = .instr .cls ∧
    decode 0xD012#16 = .instr (.drw 0#4 1#4 2#4) := by decide
/-- T1 to T4: unrecognized words. -/
theorem test_decode_unrecognized :
    decode 0x0000#16 = .reject (.unrecognized 0x0000#16) ∧ decode 0xF0FF#16 = .reject (.unrecognized 0xF0FF#16) ∧
    decode 0x8128#16 = .reject (.unrecognized 0x8128#16) ∧ decode 0x5121#16 = .reject (.unrecognized 0x5121#16) ∧
    decode 0x00FF#16 = .reject (.unrecognized 0x00FF#16) := by decide
/-- T5: with P_STRICT_SKIP_REG false 5XYn is SE_REG for any n. -/
theorem test_decode_not_strict : decodeWith false 0x5121#16 = .instr (.seReg 1#4 2#4) := by decide
/-- No two rows of the opcode table cover one word. -/
theorem test_table_rows_do_not_overlap :
    opcodeTable.Pairwise (fun a b => (a.pattern ^^^ b.pattern) &&& a.mask &&& b.mask ≠ 0#16) := by decide
theorem test_table_has_34_rows : opcodeTable.length = 34 := by decide
theorem test_decode_bytes_truncated : decodeBytes [0x12#8] = (.reject .truncated, [0x12#8]) := by decide
theorem test_table_word : decodeTableWord 16 0xD012 = some (.drw 0#4 1#4 2#4) := by decide

/-! ## The step -/

/-- T1. -/
theorem test_unrecognized_is_reported : see (fun t => (t.reports, t.pc)) (run 0x0000 base) = some ([0x0000#16], 0x202#16) := by
  decide
/-- T6. -/
theorem test_fetch_at_top_faults : faulted (step { base with pc := 0xFFF#16 }) = some (.memoryOutOfRange 0x1000) := by decide
/-- T8: an odd PC fetches normally. -/
theorem test_odd_pc : see State.pc (step (withBytes { base with pc := 0x201#16 } 0x201 [0x12#8, 0x34#8])) = some 0x234#16 := by
  decide

/-- R104: the codes. -/
theorem test_fault_codes : (Fault.memoryOutOfRange 0x1000).code = 1 ∧ Fault.stackUnderflow.code = 2 ∧
    Fault.stackOverflow.code = 3 ∧ (Fault.indexOverflow 0x10000).code = 4 := by decide

/-! ## Control transfer -/

/-- T10. -/
theorem test_jp : see State.pc (run 0x1234 base) = some 0x234#16 := by decide
/-- T12. -/
theorem test_call : see (fun t => (t.stack, t.pc)) (run 0x2300 base) = some ([0x202#16], 0x300#16) := by decide
/-- T13. -/
theorem test_call_full : faulted (run 0x2300 { base with stack := List.replicate 16 0x202#16 }) = some .stackOverflow := by
  decide
/-- R22, R23: another `P_STACK_DEPTH`. -/
theorem test_call_full_at_depth_one : faulted (run 0x2300
    { base with config := { base.config with stackDepth := 1 }, stack := [0x202#16] }) = some .stackOverflow := by decide
/-- T14. -/
theorem test_ret : see (fun t => (t.stack, t.pc)) (run 0x00EE { base with stack := [0x204#16, 0x206#16] }) =
    some ([0x204#16], 0x206#16) := by decide
/-- T15. -/
theorem test_ret_empty : faulted (run 0x00EE base) = some .stackUnderflow := by decide
/-- T17. -/
theorem test_jp_off_unmasked : see State.pc (run 0xBFFF (withRegs base [(0#4, 0xFF#8)])) = some 0x10FE#16 := by decide
/-- T18. -/
theorem test_jp_off_vx : see State.pc (run 0xB312 (withRegs
    { base with config := { base.config with jumpOffsetVX := true } } [(3#4, 0x01#8), (0#4, 0x50#8)])) = some 0x313#16 := by
  decide
/-- T19. -/
theorem test_se_imm : see State.pc (run 0x342A (withRegs base [(4#4, 0x2A#8)])) = some 0x204#16 := by decide
/-- T26: a skip at 0xFFE. -/
theorem test_se_imm_top : see State.pc (run 0x3000 { base with pc := 0xFFE#16 }) = some 0x1002#16 := by decide
/-- T21. -/
theorem test_sne_imm : see State.pc (run 0x442A (withRegs base [(4#4, 0x2B#8)])) = some 0x204#16 := by decide
/-- T22. -/
theorem test_se_reg : see State.pc (run 0x5120 (withRegs base [(1#4, 7#8), (2#4, 7#8)])) = some 0x204#16 := by decide
/-- T5: with `P_STRICT_SKIP_REG` false 5121 skips. -/
theorem test_se_reg_not_strict : see State.pc (run 0x5121
    { base with config := { base.config with strictSkipReg := false } }) = some 0x204#16 := by decide
/-- T24. -/
theorem test_sne_reg : see State.pc (run 0x9120 (withRegs base [(1#4, 7#8), (2#4, 8#8)])) = some 0x204#16 := by decide
/-- T25: X = Y never skips. -/
theorem test_sne_reg_same : see State.pc (run 0x9110 base) = some 0x202#16 := by decide

/-! ## Register and index -/

/-- T27. -/
theorem test_ld_imm : see (fun t => (t.reg 0xA#4, t.pc)) (run 0x6A7B base) = some (0x7B#8, 0x202#16) := by decide
/-- T28: wraps, no flag. -/
theorem test_add_imm_wraps : see (fun t => (t.reg 3#4, t.reg vf)) (run 0x7320 (withRegs base [(3#4, 0xF0#8)])) =
    some (0x10#8, 0#8) := by decide
/-- T29: VF as a plain destination. -/
theorem test_add_imm_vf : see (fun t => t.reg vf) (run 0x7F01 (withRegs base [(vf, 0xFF#8)])) = some 0#8 := by decide
/-- T30. -/
theorem test_ld_i : see State.i (run 0xA300 base) = some 0x300#16 := by decide
/-- T31. -/
theorem test_rnd : see (fun t => t.reg 1#4) (run 0xC10F (withInput base none false 0xA7#8)) = some 0x07#8 := by decide
/-- T35: old VF added, then the flag. -/
theorem test_add_i_vf : see (fun t => (t.i, t.reg vf)) (run 0xFF1E (withRegs { base with i := 0x0FFF#16 } [(vf, 1#8)])) =
    some (0x1000#16, 1#8) := by decide
/-- T36. -/
theorem test_add_i_overflow : faulted (run 0xF11E (withRegs { base with i := 0xFFFF#16 } [(1#4, 1#8)])) =
    some (.indexOverflow 0x10000) := by decide
/-- T37: the high nibble is ignored. -/
theorem test_ld_f : see State.i (run 0xF229 (withRegs base [(2#4, 0x1A#8)])) = some 0x082#16 := by decide

/-- R34, R76: another font: its base and its bytes. -/
theorem test_ld_f_other_font : see (fun t => (t.i, t.byteAt 0x10A, t.byteAt 0x050)) (run 0xF229 (withRegs
    { base with config := { base.config with font := { base := 0x100#12, glyphs := List.replicate 80 0x7E#8 } } }
    [(2#4, 0x02#8)])) = some (0x10A#16, 0x7E#8, 0x00#8) := by decide

/-! ## ALU -/

/-- T39. -/
theorem test_ld_reg : see (fun t => t.reg 1#4) (run 0x8120 (withRegs base [(2#4, 0x5C#8)])) = some 0x5C#8 := by decide
/-- T40: VF is not cleared. -/
theorem test_or : see (fun t => (t.reg 1#4, t.reg vf)) (run 0x8121
    (withRegs base [(1#4, 0xF0#8), (2#4, 0x0F#8), (vf, 1#8)])) = some (0xFF#8, 1#8) := by decide
/-- T41. -/
theorem test_and : see (fun t => t.reg 1#4) (run 0x8122 (withRegs base [(1#4, 0xF3#8), (2#4, 0x3F#8)])) = some 0x33#8 := by
  decide
/-- T42. -/
theorem test_xor : see (fun t => t.reg 1#4) (run 0x8123 (withRegs base [(1#4, 0xFF#8), (2#4, 0x0F#8)])) = some 0xF0#8 := by
  decide
/-- T44. -/
theorem test_add_carry : see (fun t => (t.reg 1#4, t.reg vf)) (run 0x8124
    (withRegs base [(1#4, 0xFF#8), (2#4, 0x01#8)])) = some (0#8, 1#8) := by decide
/-- T47: the flag overwrites the sum. -/
theorem test_add_into_vf : see (fun t => t.reg vf) (run 0x8F24 (withRegs base [(vf, 0xFF#8), (2#4, 0x01#8)])) = some 1#8 := by
  decide
/-- W7. -/
theorem test_sub : see (fun t => (t.reg 5#4, t.reg vf)) (run 0x8565
    (withRegs base [(5#4, 0x05#8), (6#4, 0x03#8)])) = some (2#8, 1#8) := by decide
/-- T50. -/
theorem test_sub_borrow : see (fun t => (t.reg 1#4, t.reg vf)) (run 0x8125
    (withRegs base [(2#4, 0x01#8)])) = some (0xFF#8, 0#8) := by decide
/-- T52. -/
theorem test_subn : see (fun t => (t.reg 1#4, t.reg vf)) (run 0x8127
    (withRegs base [(1#4, 0x03#8), (2#4, 0x05#8)])) = some (2#8, 1#8) := by decide
/-- T53. -/
theorem test_subn_borrow : see (fun t => (t.reg 1#4, t.reg vf)) (run 0x8127
    (withRegs base [(1#4, 0x01#8)])) = some (0xFF#8, 0#8) := by decide
/-- T54: Y ignored. -/
theorem test_shr : see (fun t => (t.reg 1#4, t.reg vf)) (run 0x8106
    (withRegs base [(1#4, 0x05#8)])) = some (2#8, 1#8) := by decide
/-- T56. -/
theorem test_shr_copy : see (fun t => (t.reg 1#4, t.reg vf, t.reg 2#4)) (run 0x8126
    (withRegs { base with config := { base.config with shiftCopyVY := true } } [(2#4, 0x04#8)])) =
    some (2#8, 0#8, 4#8) := by decide
/-- T57. -/
theorem test_shl : see (fun t => (t.reg 1#4, t.reg vf)) (run 0x810E
    (withRegs base [(1#4, 0x81#8)])) = some (2#8, 1#8) := by decide
/-- T59. -/
theorem test_shl_copy : see (fun t => (t.reg 1#4, t.reg vf, t.reg 2#4)) (run 0x812E
    (withRegs { base with config := { base.config with shiftCopyVY := true } } [(2#4, 0x81#8)])) =
    some (2#8, 1#8, 0x81#8) := by decide

/-! ## Memory transfer -/

/-- T60. -/
theorem test_store : see (fun t => (t.byteAt 0x300, t.byteAt 0x302, t.byteAt 0x303, t.i)) (run 0xF255
    (withRegs { base with i := 0x300#16 } [(0#4, 0x11#8), (1#4, 0x22#8), (2#4, 0x33#8), (3#4, 0x44#8)])) =
    some (0x11#8, 0x33#8, 0#8, 0x300#16) := by decide
/-- T63. -/
theorem test_store_out_of_range : faulted (run 0xF355 { base with i := 0xFFE#16 }) = some (.memoryOutOfRange 0x1000) := by
  decide
/-- T61. -/
theorem test_load : see (fun t => (t.reg 0#4, t.reg 1#4, t.reg 2#4, t.reg 3#4, t.i)) (run 0xF265
    (withBytes { base with i := 0x300#16 } 0x300 [1#8, 2#8, 3#8, 4#8])) = some (1#8, 2#8, 3#8, 0#8, 0x300#16) := by decide
/-- T62. -/
theorem test_load_vf : see (fun t => t.reg vf) (run 0xFF65 (withBytes { base with i := 0x300#16 } 0x30F [0x42#8])) =
    some 0x42#8 := by decide
/-- T65. -/
theorem test_bcd : see (fun t => (t.byteAt 0x300, t.byteAt 0x301, t.byteAt 0x302)) (run 0xF133
    (withRegs { base with i := 0x300#16 } [(1#4, 0xFF#8)])) = some (2#8, 5#8, 5#8) := by decide
/-- T67. -/
theorem test_bcd_out_of_range : faulted (run 0xF133 { base with i := 0xFFE#16 }) = some (.memoryOutOfRange 0x1000) := by
  decide
/-- Storing the reset contents lists nothing: the canonical form. -/
theorem test_store_reset_contents : see (fun t => t.mem.length) (run 0xF055 { base with i := 0x300#16 }) = some 2 := by decide

/-! ## Timers -/

/-- T69. -/
theorem test_read_delay_before : see (fun t => (t.dt, t.reg 3#4)) (run 0xF307
    (withInput { base with dt := 0x3C#8 } none true 0#8)) = some (0x3B#8, 0x3B#8) := by decide
/-- T70. -/
theorem test_read_delay_after : see (fun t => (t.dt, t.reg 3#4)) (run 0xF307 (withInput
    { base with dt := 0x3C#8, config := { base.config with timerPhase := .afterExecute } } none true 0#8)) =
    some (0x3B#8, 0x3C#8) := by decide
/-- T71. -/
theorem test_set_delay_before : see State.dt (run 0xF315 (withInput (withRegs base [(3#4, 0x3C#8)]) none true 0#8)) =
    some 0x3C#8 := by decide
/-- T72. -/
theorem test_set_delay_after : see State.dt (run 0xF315 (withInput (withRegs
    { base with config := { base.config with timerPhase := .afterExecute } } [(3#4, 0x3C#8)]) none true 0#8)) =
    some 0x3B#8 := by decide
/-- T73. -/
theorem test_set_sound : see (fun t => (t.st, bell t)) (run 0xF318
    (withInput (withRegs base [(3#4, 0x01#8)]) none true 0#8)) = some (1#8, true) := by decide
/-- T74: the floor. -/
theorem test_timer_floor : see (fun t => (t.dt, t.st, bell t)) (run 0x6000
    (withInput { base with dt := 0#8, st := 1#8 } none true 0#8)) = some (0#8, 0#8, false) := by decide

/-! ## Keypad -/

/-- W8, T75. -/
theorem test_await_no_key : see (fun t => (t.pc, t.reg 0#4)) (run 0xF00A base) = some (0x200#16, 0#8) := by decide
/-- T76. -/
theorem test_await_key : see (fun t => (t.pc, t.reg 0#4)) (run 0xF00A (withInput base (some 7#4) false 0#8)) =
    some (0x202#16, 7#8) := by decide
/-- T77. -/
theorem test_skp : see State.pc (run 0xE19E (withInput (withRegs base [(1#4, 5#8)]) (some 5#4) false 0#8)) =
    some 0x204#16 := by decide
/-- T79: no mask. -/
theorem test_skp_no_mask : see State.pc (run 0xE19E (withInput (withRegs base [(1#4, 0x15#8)]) (some 5#4) false 0#8)) =
    some 0x202#16 := by decide
/-- T80: no key skips. -/
theorem test_sknp_no_key : see State.pc (run 0xE1A1 (withRegs base [(1#4, 5#8)])) = some 0x204#16 := by decide
/-- T81. -/
theorem test_sknp_key : see State.pc (run 0xE1A1 (withInput (withRegs base [(1#4, 5#8)]) (some 5#4) false 0#8)) =
    some 0x202#16 := by decide

/-! ## Display -/

/-- W6, T83. -/
theorem test_cls : see (fun t => (t.fb, t.dirty, t.pc)) (run 0x00E0 { base with fb := base.fb.flip 3 5 }) =
    some (base.fb, true, 0x202#16) := by decide
/-- T87: start wraps, row clips, column wraps. -/
theorem test_drw_wrap_and_clip : see (fun t => (t.fb, t.reg vf, t.dirty)) (run 0xD012 (withBytes
    (withRegs { base with i := 0x210#16 } [(0#4, 62#8), (1#4, 31#8)]) 0x210 [0x81#8, 0xFF#8])) =
    some ((base.fb.flip 31 62).flip 31 5, 0#8, true) := by decide
/-- T86: the start position is taken modulo 64 and modulo 32, and columns wrap. -/
theorem test_drw_start_wraps : see (fun t => ((List.range 64).filter (t.fb.pixel 1), (List.range 32).filter
    (fun row => (List.range 64).any (t.fb.pixel row)), t.reg vf)) (run 0xD011 (withBytes
    (withRegs { base with i := 0x300#16 } [(0#4, 0x7C#8), (1#4, 0x21#8)]) 0x300 [0xFF#8])) =
    some ([0, 1, 2, 3, 60, 61, 62, 63], [1], 0#8) := by decide
/-- T85: a collision clears the pixel and sets VF. -/
theorem test_drw_collision : see (fun t => (t.fb, t.reg vf)) (run 0xD011 (withBytes
    { base with i := 0x300#16, fb := base.fb.flip 0 0 } 0x300 [0xF0#8])) =
    some (((base.fb.flip 0 1).flip 0 2).flip 0 3, 1#8) := by decide
/-- T89: clipped rows are checked. -/
theorem test_drw_out_of_range : faulted (run 0xD01F (withRegs { base with i := 0xFF5#16 } [(1#4, 31#8)])) =
    some (.memoryOutOfRange 0x1000) := by decide
/-- T88: glyph 0 from the font, position from the old VF; row 0 sets columns 63, 0, 1, 2. -/
theorem test_drw_font : see (fun t => (t.fb.pixel 0 63, t.fb.pixel 0 2, t.fb.pixel 0 3, t.fb.pixel 1 0, t.reg vf))
    (run 0xDF05 (withRegs { base with i := 0x050#16 } [(vf, 0x3F#8)])) = some (true, true, false, false, 0#8) := by decide

/-! ## Host operations -/

/-- W6: LoadRom, then one step. -/
theorem test_load_rom : see (fun t => (t.byteAt 0x200, t.byteAt 0x201, t.pc))
    (loadRom [0x00#8, 0xE0#8] { base with pc := 0x300#16 }) = some (0x00#8, 0xE0#8, 0x200#16) := by decide
/-- R30, R105: a fault keeps the configuration, whatever the unspecified rest is. -/
theorem test_fault_keeps_configuration : (transact State.reset { base with pc := 0xFFF#16 }).config = base.config ∧
    (transact State.reset { base with pc := 0xFFF#16 }).fault = some (.memoryOutOfRange 0x1000) := by
  rw [transact, show step { base with pc := 0xFFF#16 } = .fault (.memoryOutOfRange 0x1000) from
    fault_of_faulted (by decide)]
  exact ⟨rfl, rfl⟩
/-- T92. -/
theorem test_read_display : (readDisplay { base with dirty := true }).1.dirty = true ∧
    (readDisplay { base with dirty := true }).2.dirty = false := by decide
/-- A step at reset's zero word, the inputs and the configuration left free: it completes (R122). -/
theorem test_step_at_reset_completes : completes (step State.reset) = true := by decide
/-- The first step after reset runs a placed word, whatever the free values are. -/
theorem test_reset_runs_placed_word :
    see State.pc (step (State.reset.withFetchWord 16 0x1234)) = some 0x234#16 := by decide

/-! ## Witnesses: for each statement with hypotheses, concrete states and operands that meet them, at the edges of each
clause -/

/-- The base state with a word placed at PC. -/
def placed (w : Nat) : State := base.withFetchWord 16 w

/-- The base state at address `a` with a word placed there. -/
def placedAt (a : Word) (w : Nat) : State := { base with pc := a }.withFetchWord 16 w

/-- The base state with I set. -/
def atI (a : Word) : State := { base with i := a }

/-- The base state with inputs latched, as an instruction sees them. -/
def latched (key : Option Key) : State := { base with latch := { key := key, tick := true, rnd := 0x5A#8 } }

/-- A full stack of return addresses. -/
def deep (n : Nat) : State := { base with stack := List.replicate n 0x202#16 }

theorem fetchable_of {s : State} (h : decide (s.pc.toNat + 1 < 4096) = true) : Fetchable s :=
  show s.pc.toNat + 1 < 4096 from of_decide_eq_true h

theorem other_instr {d : Decoded} {i j : Instr} (h : d = .instr i) (hne : i ≠ j) : d ≠ .instr j := fun h' => by
  rw [h] at h'; cases h'; exact hne rfl

theorem placed_inv : Inv (placed 0x2300) := ⟨by decide, by decide, fun _ h => (by cases h), by decide, by decide⟩

theorem witness_DecodeOfEncodeIsTheInstruction : Instr.wf .cls = true ∧ Instr.wf (.drw 15#4 15#4 15#4) = true := by decide
theorem witness_InvariantHoldsAtReset : base.config.wf = true := by decide
theorem witness_CreatedCoreHoldsTheFontItIsGiven :
    ({ base.config with font := { base := 0x1B0#12, glyphs := List.replicate 80 0xFF#8 } } : Configuration).wf = true ∧
    ({ base.config with font := { base := 0x000#12, glyphs := fontGlyphs } } : Configuration).wf = true := by decide
theorem witness_FontAddressIsFiveBytesAGlyph : State.reset.config = State.reset.config := rfl
theorem witness_EncodeOfDecodeIsTheWord :
    decode 0x00E0#16 = .instr .cls ∧ decode 0xFF65#16 = .instr (.ldMemLoad 15#4) := by decide
theorem witness_DecoderAgreesWithTheOpcodeTable :
    (∀ row ∈ opcodeTable, row.covers 0x00E1#16 = false) ∧ (∃ row ∈ opcodeTable, row.covers 0xDFFF#16 = true) := by decide
theorem witness_UnrecognizedWordsAreThoseTheSpecLists :
    decode 0x00EF#16 = .reject (.unrecognized 0x00EF#16) ∧ decode 0x5FFF#16 = .reject (.unrecognized 0x5FFF#16) ∧
    decode 0x9001#16 = .reject (.unrecognized 0x9001#16) ∧ decode 0x800D#16 = .reject (.unrecognized 0x800D#16) ∧
    decode 0x8FFF#16 = .reject (.unrecognized 0x8FFF#16) ∧ decode 0xE0A0#16 = .reject (.unrecognized 0xE0A0#16) ∧
    decode 0xF066#16 = .reject (.unrecognized 0xF066#16) ∧ decode 0x800E#16 ≠ .reject (.unrecognized 0x800E#16) := by decide
theorem witness_StepRunsTheDecodedInstruction :
    ((placed 0x6A7B).fault = none ∧ Fetchable (placed 0x6A7B) ∧ (placed 0x6A7B).decoded = .instr (.ldImm 0xA#4 0x7B#8)) ∧
    ((placedAt 0xFFE#16 0x00E0).fault = none ∧ Fetchable (placedAt 0xFFE#16 0x00E0) ∧
      (placedAt 0xFFE#16 0x00E0).decoded = .instr .cls) :=
  ⟨⟨rfl, fetchable_of (by decide), by decide⟩, ⟨rfl, fetchable_of (by decide), by decide⟩⟩
theorem witness_PlacedWordIsTheWordFetched :
    State.reset.memWf = true ∧ Fetchable State.reset ∧ Fetchable { base with pc := 0xFFE#16 } :=
  ⟨by decide, fetchable_of (by decide), fetchable_of (by decide)⟩
theorem witness_UnrecognizedWordIsReportedAndPassedOver :
    State.reset.fault = none ∧ Fetchable State.reset ∧
    State.reset.decoded = .reject (.unrecognized State.reset.wordAtPc) ∧
    Fetchable (placedAt 0xFFE#16 0xFFFF) ∧
    (placedAt 0xFFE#16 0xFFFF).decoded = .reject (.unrecognized (placedAt 0xFFE#16 0xFFFF).wordAtPc) :=
  ⟨rfl, fetchable_of (by decide), by decide, fetchable_of (by decide), by decide⟩
theorem witness_FetchOutsideMemoryFaults :
    base.fault = none ∧ ({ base with pc := 0xFFF#16 } : State).pc.toNat = 0xFFF ∧
    0xFFF < ({ base with pc := 0x1000#16 } : State).pc.toNat ∧ 0xFFF < ({ base with pc := 0xFFFF#16 } : State).pc.toNat := by
  decide
theorem witness_FaultIsSetOnceAndNeverCleared :
    (∃ t, step (placed 0x1234) = .next t) ∧ step (placed 0x00EE) = .fault .stackUnderflow ∧
    (State.halt base .stackUnderflow base).fault = some .stackUnderflow :=
  ⟨next_of_completes (by decide), fault_of_faulted (by decide), rfl⟩
theorem witness_OnlyTheSpecsFaultsAreRaised :
    exec (.drw 0#4 0#4 2#4) (atI 0xFFF#16) = .fault (.memoryOutOfRange 0x1000) ∧
    exec (.ldMemLoad 0#4) (atI 0xFFFF#16) = .fault (.memoryOutOfRange 0xFFFF) ∧
    exec .ret base = .fault .stackUnderflow ∧ exec (.call 0#12) (deep 16) = .fault .stackOverflow ∧
    exec (.addI 0#4) (withRegs (atI 0xFFFF#16) [(0#4, 1#8)]) = .fault (.indexOverflow 0x10000) :=
  ⟨fault_of_faulted (by decide), fault_of_faulted (by decide), fault_of_faulted (by decide), fault_of_faulted (by decide),
    fault_of_faulted (by decide)⟩
theorem witness_EveryStepCountsEachTimerAtMostOnce :
    (∃ t, step (placed 0x00E0) = .next t) ∧ (∀ x, (placed 0x00E0).decoded ≠ .instr (.ldDt x)) ∧
    (∀ x, (placed 0x00E0).decoded ≠ .instr (.ldSt x)) :=
  ⟨next_of_completes (by decide), fun _ => other_instr (i := .cls) (by decide) (fun h => by cases h),
    fun _ => other_instr (i := .cls) (by decide) (fun h => by cases h)⟩
theorem witness_TimerPhaseDecidesWhatTimerInstructionsSee :
    (placed 0xF307).fault = none ∧ Fetchable (placed 0xF307) ∧ (placed 0xF307).decoded = .instr (.ldVxDt 3#4) ∧
    Fetchable (placed 0xF315) ∧ (placed 0xF315).decoded = .instr (.ldDt 3#4) ∧
    Fetchable (placed 0xFF18) ∧ (placed 0xFF18).decoded = .instr (.ldSt 0xF#4) :=
  ⟨rfl, fetchable_of (by decide), by decide, fetchable_of (by decide), by decide, fetchable_of (by decide), by decide⟩
theorem witness_EveryStepKeepsTheInvariant : Inv (placed 0x2300) ∧ ∃ t, step (placed 0x2300) = .next t :=
  ⟨placed_inv, next_of_completes (by decide)⟩
theorem witness_EveryHostRunKeepsTheInvariant :
    Inv (placed 0x2300) ∧ (∀ rest, HostOp.step rest ∈ [HostOp.step (placed 0x2300), .readDisplay] →
      Inv { rest with config := (placed 0x2300).config }) :=
  ⟨placed_inv, fun rest h => by
    simp only [List.mem_cons, HostOp.step.injEq, reduceCtorEq, List.not_mem_nil, or_false] at h
    exact h ▸ placed_inv⟩
theorem witness_OnlyCallPushesAndOnlyRetPops :
    (∃ t, step (placed 0x2300) = .next t) ∧ (∃ t, step (placed 0x00E0) = .next t) ∧
    (∃ t, step ((deep 16).withFetchWord 16 0x00EE) = .next t) :=
  ⟨next_of_completes (by decide), next_of_completes (by decide), next_of_completes (by decide)⟩
theorem witness_OnlyClsAndDrwWriteTheFramebuffer :
    (∃ t, step (placed 0x1234) = .next t) ∧ (placed 0x1234).decoded ≠ .instr .cls ∧
    (∀ x y n, (placed 0x1234).decoded ≠ .instr (.drw x y n)) ∧
    (∃ t, step (placed 0xD01F) = .next t) ∧ (placed 0xD01F).decoded = .instr (.drw 0#4 1#4 15#4) ∧
    (∃ t, step (placed 0x00E0) = .next t) ∧ (placed 0x00E0).decoded = .instr .cls :=
  ⟨next_of_completes (by decide), by decide,
    fun _ _ _ => other_instr (i := .jp 0x234#12) (by decide) (fun h => by cases h),
    next_of_completes (by decide), by decide, next_of_completes (by decide), by decide⟩
theorem witness_OnlyStoresWriteMemory :
    (∃ t, step ((atI 0xFFD#16).withFetchWord 16 0xF133) = .next t) ∧
    (∃ t, step ((atI 0xFF0#16).withFetchWord 16 0xFF55) = .next t) ∧ (∃ t, step (placed 0x1234) = .next t) :=
  ⟨next_of_completes (by decide), next_of_completes (by decide), next_of_completes (by decide)⟩
theorem witness_IndexIsWrittenByThreeInstructions :
    (∃ t, step (placed 0xF255) = .next t) ∧ (∀ a, (placed 0xF255).decoded ≠ .instr (.ldI a)) ∧
    (∀ x, (placed 0xF255).decoded ≠ .instr (.addI x)) ∧ (∀ x, (placed 0xF255).decoded ≠ .instr (.ldF x)) :=
  ⟨next_of_completes (by decide), fun _ => other_instr (i := .ldMemStore 2#4) (by decide) (fun h => by cases h),
    fun _ => other_instr (i := .ldMemStore 2#4) (by decide) (fun h => by cases h),
    fun _ => other_instr (i := .ldMemStore 2#4) (by decide) (fun h => by cases h)⟩
theorem witness_FlagIsASideEffectOfSevenInstructions :
    (∃ t, exec (.addReg vf 1#4) base = .next t) ∧ (∃ t, exec (.sub 1#4 vf) base = .next t) ∧
    (∃ t, exec (.subn vf vf) base = .next t) ∧ (∃ t, exec (.shr vf 0#4) base = .next t) ∧
    (∃ t, exec (.shl 0#4 vf) base = .next t) ∧ (∃ t, exec (.addI vf) base = .next t) ∧
    (∃ t, exec (.drw vf vf 15#4) base = .next t) ∧
    (∃ t, exec (.ldMemLoad 14#4) base = .next t) ∧ vf ∉ Instr.destinations (.ldMemLoad 14#4) :=
  ⟨⟨_, rfl⟩, ⟨_, rfl⟩, ⟨_, rfl⟩, ⟨_, rfl⟩, ⟨_, rfl⟩, next_of_completes (by decide), next_of_completes (by decide),
    next_of_completes (by decide), by decide⟩
theorem witness_ReportsOnlyGrowAndAreNotRead :
    (∃ t, step (placed 0x1234) = .next t) ∧ (placed 0x1234).decoded = .instr (.jp 0x234#12) ∧
    (∃ t, step (placed 0x0123) = .next t) ∧ (∀ i, (placed 0x0123).decoded ≠ .instr i) :=
  ⟨next_of_completes (by decide), by decide, next_of_completes (by decide), fun i h => by
    rw [show (placed 0x0123).decoded = .reject (.unrecognized 0x0123#16) by decide] at h; cases h⟩
theorem witness_ConfigurationIsFixedForLife :
    (∃ t, step (placed 0x1234) = .next t) ∧ (∃ t, loadRom [0x00#8, 0xE0#8] base = .next t) :=
  ⟨next_of_completes (by decide), next_of_completes (by decide)⟩
theorem witness_InputsAreReadOnlyByTheirInstructions :
    (∀ x nn, Instr.cls ≠ .rnd x nn) ∧ (∀ x, Instr.cls ≠ .ldK x) ∧ (∀ x, Instr.cls ≠ .skp x) ∧ (∀ x, Instr.cls ≠ .sknp x) ∧
    ∃ t, exec .cls (latched (some 15#4)) = .next t :=
  ⟨fun _ _ h => (by cases h), fun _ h => (by cases h), fun _ h => (by cases h), fun _ h => (by cases h), ⟨_, rfl⟩⟩
theorem witness_StepLatchesTheOldestAnnouncedInput :
    (∃ t, step (placed 0x1234) = .next t) ∧ (placed 0x1234).inputs = { key := none, tick := false, rnd := 0#8 } :: [] ∧
    (∃ t, step State.reset = .next t) ∧ State.reset.inputs = [] :=
  ⟨next_of_completes (by decide), rfl, next_of_completes (by decide), rfl⟩
theorem witness_ConfigurationIsFixedForLife_faulting : step { base with pc := 0xFFF#16 } = .fault (.memoryOutOfRange 0x1000) :=
  fault_of_faulted (by decide)
theorem witness_JumpWithOffsetAddsItsRegister : base.config.jumpOffsetVX = false ∧
    ({ base with config := { base.config with jumpOffsetVX := true } } : State).config.jumpOffsetVX = true := by decide
theorem witness_CallPushesTheReturnAddressAndJumps :
    base.stack.length < base.config.stackDepth ∧ (deep 15).stack.length < (deep 15).config.stackDepth ∧
    (deep 16).config.stackDepth ≤ (deep 16).stack.length ∧ (deep 17).config.stackDepth ≤ (deep 17).stack.length := by
  decide
theorem witness_ReturnPopsIntoPc :
    (deep 1).stack = [] ++ [0x202#16] ∧ (deep 16).stack = List.replicate 15 0x202#16 ++ [0x202#16] ∧ base.stack = [] := by
  decide
theorem witness_SkipsOnAnImmediate : base.reg 4#4 = 0#8 ∧ base.reg 4#4 ≠ 0xFF#8 := by decide
theorem witness_SkipsOnARegister : base.reg 1#4 = base.reg 2#4 ∧
    (withRegs base [(1#4, 1#8)]).reg 1#4 ≠ (withRegs base [(1#4, 1#8)]).reg 2#4 := by decide
theorem witness_SkipMovesTwoWordsOn :
    (placedAt 0xFFE#16 0x3000).fault = none ∧ Fetchable (placedAt 0xFFE#16 0x3000) ∧
    (placedAt 0xFFE#16 0x3000).decoded = .instr (.seImm 0#4 0#8) ∧
    Instr.skipCondition (.seImm 0#4 0#8) (placedAt 0xFFE#16 0x3000).atExecute =
      some ((placedAt 0xFFE#16 0x3000).atExecute.reg 0#4 = 0#8) ∧
    (placedAt 0xFFE#16 0x3000).atExecute.reg 0#4 = 0#8 ∧
    Fetchable (placed 0x3001) ∧ (placed 0x3001).decoded = .instr (.seImm 0#4 1#8) ∧
    Instr.skipCondition (.seImm 0#4 1#8) (placed 0x3001).atExecute = some ((placed 0x3001).atExecute.reg 0#4 = 1#8) ∧
    ¬ (placed 0x3001).atExecute.reg 0#4 = 1#8 :=
  ⟨rfl, fetchable_of (by decide), by decide, rfl, by decide, fetchable_of (by decide), by decide, rfl, by decide⟩
theorem witness_SkipMovesTwoWordsOn_others :
    Fetchable (placed 0x4001) ∧ (placed 0x4001).decoded = .instr (.sneImm 0#4 1#8) ∧
    Instr.skipCondition (.sneImm 0#4 1#8) (placed 0x4001).atExecute = some ((placed 0x4001).atExecute.reg 0#4 ≠ 1#8) ∧
    Fetchable (placed 0x5010) ∧ (placed 0x5010).decoded = .instr (.seReg 0#4 1#4) ∧
    Fetchable (placed 0x9010) ∧ (placed 0x9010).decoded = .instr (.sneReg 0#4 1#4) ∧
    Fetchable (placed 0xE09E) ∧ (placed 0xE09E).decoded = .instr (.skp 0#4) ∧
    Instr.skipCondition (.skp 0#4) (placed 0xE09E).atExecute =
      some (∃ k, (placed 0xE09E).atExecute.latch.key = some k ∧ k.toNat = ((placed 0xE09E).atExecute.reg 0#4).toNat) ∧
    Fetchable (placed 0xE0A1) ∧ (placed 0xE0A1).decoded = .instr (.sknp 0#4) ∧
    Instr.skipCondition (.sknp 0#4) (placed 0xE0A1).atExecute =
      some (¬ ∃ k, (placed 0xE0A1).atExecute.latch.key = some k ∧ k.toNat = ((placed 0xE0A1).atExecute.reg 0#4).toNat) :=
  ⟨fetchable_of (by decide), by decide, rfl, fetchable_of (by decide), by decide, fetchable_of (by decide), by decide,
    fetchable_of (by decide), by decide, rfl, fetchable_of (by decide), by decide, rfl⟩
theorem witness_AddToIndexFlagsTheTwelveBitRange :
    (atI 0xFFFF#16).i.toNat + ((atI 0xFFFF#16).reg vf).toNat ≤ 0xFFFF ∧
    0xFFFF < (withRegs (atI 0xFFFF#16) [(vf, 1#8)]).i.toNat + ((withRegs (atI 0xFFFF#16) [(vf, 1#8)]).reg vf).toNat := by
  decide
theorem witness_AddSetsTheCarry : (0#4 : RegIdx) ≠ vf ∧ (14#4 : RegIdx) ≠ vf := by decide
theorem witness_SubtractionsSetNoBorrow : (0#4 : RegIdx) ≠ vf ∧ (14#4 : RegIdx) ≠ vf := by decide
theorem witness_ShiftsMoveOneBitIntoTheFlag :
    0x81 = (if (withRegs base [(14#4, 0x81#8)]).config.shiftCopyVY = true then (withRegs base [(14#4, 0x81#8)]).reg vf
      else (withRegs base [(14#4, 0x81#8)]).reg 14#4).toNat ∧ (14#4 : RegIdx) ≠ vf := by decide
/-- The base state with `P_SHIFT_COPY_VY` true and VF = 0x81. -/
def copying : State := withRegs { base with config := { base.config with shiftCopyVY := true } } [(vf, 0x81#8)]
theorem witness_ShiftsMoveOneBitIntoTheFlag_copy :
    0x81 = (if copying.config.shiftCopyVY = true then copying.reg vf else copying.reg 14#4).toNat := by decide
theorem witness_StoreRegistersCopiesV0ToVX :
    (atI 0xFF0#16).i.toNat + (vf : RegIdx).toNat ≤ 0xFFF ∧ (atI 0xFF0#16).memWf = true ∧
    0xFFF < (atI 0xFF1#16).i.toNat + (vf : RegIdx).toNat ∧ 0xFFF < (atI 0xFFFF#16).i.toNat + (0#4 : RegIdx).toNat := by decide
theorem witness_LoadRegistersCopiesMemoryToV0ToVX :
    (atI 0xFF0#16).i.toNat + (vf : RegIdx).toNat ≤ 0xFFF ∧ (15#4 : RegIdx).toNat ≤ (vf : RegIdx).toNat ∧
    0xFFF < (atI 0xFF1#16).i.toNat + (vf : RegIdx).toNat ∧ 0xFFF < (atI 0xFFFF#16).i.toNat + (0#4 : RegIdx).toNat := by decide
theorem witness_StoreBcdWritesThreeDigits :
    (atI 0xFFD#16).i.toNat + 2 ≤ 0xFFF ∧ (atI 0xFFD#16).memWf = true ∧ 0xFFF < (atI 0xFFE#16).i.toNat + 2 ∧
    0xFFF < (atI 0xFFFF#16).i.toNat + 2 := by decide
theorem witness_AwaitKeyTakesTheKeyOrStaysPut :
    (latched (some 15#4)).latch.key = some 15#4 ∧ (latched none).latch.key = none ∧
    (placed 0xFF0A).fault = none ∧ Fetchable (placed 0xFF0A) ∧ (placed 0xFF0A).decoded = .instr (.ldK vf) ∧
    (placed 0xFF0A).nextInput.key = none :=
  ⟨rfl, rfl, rfl, fetchable_of (by decide), by decide, rfl⟩
theorem witness_WaitingForAKeyChangesOnlyTimersAndInputs :
    (placedAt 0xFFE#16 0xF00A).fault = none ∧ Fetchable (placedAt 0xFFE#16 0xF00A) ∧
    (placedAt 0xFFE#16 0xF00A).decoded = .instr (.ldK 0#4) ∧ (placedAt 0xFFE#16 0xF00A).nextInput.key = none :=
  ⟨rfl, fetchable_of (by decide), by decide, rfl⟩
theorem witness_SkipsOnTheLatchedKey :
    (latched (some 0#4)).latch.key = some 0#4 ∧ (latched (some 15#4)).latch.key = some 15#4 ∧
    (latched none).latch.key = none := by decide
theorem witness_DrawXorsExactlyTheSprite :
    (atI 0xFF1#16).i.toNat + (15#4 : BitVec 4).toNat ≤ 0x1000 ∧
    ((atI 0xFFFF#16).i.toNat + (0#4 : BitVec 4).toNat ≤ 0x1000 ∨ (0#4 : BitVec 4) = 0x0#4) ∧
    SpriteSets (withBytes (withRegs base [(0#4, 63#8), (1#4, 31#8)]) 0 [0x01#8]) 0#4 1#4 1#4 31 6 ∧
    ({ base with fb := base.fb.flip 31 6 } : State).fb.pixel 31 6 = true :=
  ⟨by decide, by decide, ⟨0, 7, by decide⟩, by decide⟩
theorem witness_DrawChecksEverySpriteAddress :
    (1#4 : BitVec 4) ≠ 0x0#4 ∧ 0x1000 < (atI 0x1000#16).i.toNat + (1#4 : BitVec 4).toNat ∧
    0x1000 < (atI 0xFF2#16).i.toNat + (15#4 : BitVec 4).toNat := by decide
theorem witness_DrawingTwiceRestoresTheFramebuffer :
    ((atI 0xFF1#16).i.toNat + (15#4 : BitVec 4).toNat ≤ 0x1000 ∨ (15#4 : BitVec 4) = 0x0#4) ∧
    (0#4 : RegIdx) ≠ vf ∧ (14#4 : RegIdx) ≠ vf ∧ ((15#4 : RegIdx) = vf ∨ (14#4 : RegIdx) = vf) := by decide
theorem witness_LoadRomPlacesTheImageAndResetsPc :
    base.fault = none ∧ (List.replicate 3584 0xFF#8).length ≤ 3584 ∧ base.memWf = true ∧
    3584 < (List.replicate 3585 0xFF#8).length ∧ (State.halt base .stackOverflow base).fault = some .stackOverflow :=
  ⟨rfl, Nat.le_of_eq List.length_replicate, by decide, by rw [List.length_replicate]; decide, rfl⟩

end Sys2Proof.Tests
end

section
/-! SUPPORT. Scope (spec/00_scope.md): what a completed step does with the inputs of R10 and R55. The instruction never
touches them, so the latch, the queue and the counter end as `State.latchInput` left them before the fetch. -/

namespace Sys2Proof.Machine

/-- The parts that hold the host's inputs: KEY and the other latched inputs, the announced ones, the count of free ones. -/
def inputParts : List Part := [.latch, .inputs, .drawn]

/-- No instruction's frame names an input part: a block transfer's frame holds only bytes or only registers, and every
other frame is written out. -/
theorem not_mem_parts_of_mem_inputParts {p : Part} (hp : p ∈ inputParts) (i : Instr) (s : State) :
    p ∉ Instr.parts i s := by
  simp only [inputParts, List.mem_cons, List.not_mem_nil, or_false] at hp
  cases i with
  | ldB _ | ldMemStore _ => rcases hp with rfl | rfl | rfl <;> simp [Instr.parts, bytesFrom]
  | ldMemLoad _ => rcases hp with rfl | rfl | rfl <;> simp [Instr.parts, regsTo]
  | _ => rcases hp with rfl | rfl | rfl <;> simp [Instr.parts]

/-- An instruction that completes leaves the inputs alone (frame of R57). -/
theorem exec_keeps_inputs {p : Part} (hp : p ∈ inputParts) {i : Instr} {s t : State} (h : exec i s = .next t) :
    p.same s t := exec_changesOnly i h p (not_mem_parts_of_mem_inputParts hp i s)

/-- A fetched word, an instruction or one passed over (R58), leaves the inputs alone. -/
theorem executeWord_keeps_inputs {p : Part} (hp : p ∈ inputParts) {w : Word} {s t : State}
    (h : executeWord w s = .next t) : p.same s t := by
  cases hd : decodeWith s.config.strictSkipReg w with
  | instr i =>
    rw [executeWord_instr hd] at h
    exact exec_keeps_inputs hp h
  | reject r =>
    rw [executeWord_reject hd] at h
    cases next_inj h
    exact changesOnly_report s w p fun hr => by cases List.mem_singleton.mp hr; simp [inputParts] at hp

/-- A completed step ends with the inputs that `State.latchInput` took before the fetch. -/
theorem step_inputs {s t : State} (h : step s = .next t) :
    t.latch = s.latchInput.latch ∧ t.inputs = s.latchInput.inputs ∧ t.drawn = s.latchInput.drawn := by
  obtain ⟨_, _, u, hu, rfl⟩ := step_next_cases h
  have keeps {p : Part} (hp : p ∈ inputParts) : p.same s.atExecute u := executeWord_keeps_inputs hp hu
  exact ⟨keeps (p := .latch) (by decide), keeps (p := .inputs) (by decide), keeps (p := .drawn) (by decide)⟩

theorem State.nextInput_cons {s : State} {inp : StepInput} {more : List StepInput} (h : s.inputs = inp :: more) :
    s.nextInput = inp := by
  simp [State.nextInput, h]

theorem State.nextInput_nil {s : State} (h : s.inputs = []) : s.nextInput = Config.freeInput s.drawn := by
  simp [State.nextInput, h]

/-- Settles O26: the step keeps what `State.latchInput` took, the head of the queue or else a free value. -/
theorem stepLatchesTheOldestAnnouncedInput : Obligations.StepLatchesTheOldestAnnouncedInput := by
  intro s t h
  obtain ⟨hlatch, hinputs, hdrawn⟩ := step_inputs h
  rw [hlatch, hinputs, hdrawn]
  constructor
  · intro inp more hs
    simp [State.nextInput_cons hs, hs]
  · intro hs
    simp [State.nextInput_nil hs, hs]

end Sys2Proof.Machine
end

section
/-! SUPPORT. Which instructions name a part of the state in their frame, and what a completed step keeps: a part that
only some instructions may change is unchanged by every step at another word, an unrecognized one included. -/

namespace Sys2Proof.Machine

/-- An instruction's frame names registers, memory, I, PC, the stack, the timers and the display at most (R18 to R27). -/
theorem mem_parts_cases {p : Part} {i : Instr} {s : State} (h : p ∈ Instr.parts i s) :
    (∃ r, p = .reg r) ∨ (∃ a, p = .byte a) ∨
      p ∈ [.index, .pc, .stack, .delay, .sound, .framebuffer, .dirty] := by
  cases i with
  | ldB _ | ldMemStore _ =>
    obtain ⟨k, _, rfl⟩ := List.mem_map.mp h
    exact .inr (.inl ⟨_, rfl⟩)
  | ldMemLoad _ =>
    obtain ⟨r, _, rfl⟩ := List.mem_map.mp h
    exact .inl ⟨r, rfl⟩
  | _ =>
    simp only [Instr.parts, List.mem_cons, List.not_mem_nil, or_false] at h
    rcases h with rfl | rfl | rfl <;> simp

theorem reports_not_mem_parts (i : Instr) (s : State) : .reports ∉ Instr.parts i s := fun h => by
  simpa using mem_parts_cases h

theorem fault_not_mem_parts (i : Instr) (s : State) : .fault ∉ Instr.parts i s := fun h => by
  simpa using mem_parts_cases h

theorem config_not_mem_parts (i : Instr) (s : State) : .config ∉ Instr.parts i s := fun h => by
  simpa using mem_parts_cases h

theorem stack_mem_parts {i : Instr} {s : State} (h : .stack ∈ Instr.parts i s) : i = .ret ∨ ∃ a, i = .call a := by
  cases i with
  | ret => exact .inl rfl
  | call a => exact .inr ⟨a, rfl⟩
  | _ => simp [Instr.parts, bytesFrom, regsTo] at h

theorem framebuffer_or_dirty_mem_parts {i : Instr} {s : State}
    (h : .framebuffer ∈ Instr.parts i s ∨ .dirty ∈ Instr.parts i s) : i = .cls ∨ ∃ x y n, i = .drw x y n := by
  cases i with
  | cls => exact .inl rfl
  | drw x y n => exact .inr ⟨x, y, n, rfl⟩
  | _ => simp [Instr.parts, bytesFrom, regsTo] at h

theorem index_mem_parts {i : Instr} {s : State} (h : .index ∈ Instr.parts i s) :
    (∃ a, i = .ldI a) ∨ (∃ x, i = .addI x) ∨ ∃ x, i = .ldF x := by
  cases i with
  | ldI a => exact .inl ⟨a, rfl⟩
  | addI x => exact .inr (.inl ⟨x, rfl⟩)
  | ldF x => exact .inr (.inr ⟨x, rfl⟩)
  | _ => simp [Instr.parts, bytesFrom, regsTo] at h

/-- A step at an unrecognized word changes at most REPORTS, PC, the timers and the inputs (R58). -/
theorem step_changesOnly_of_reject {s t : State} {r : Reject} (h : step s = .next t) (hd : s.decoded = .reject r) :
    ChangesOnly s t (.reports :: .pc :: aroundParts) := by
  rcases step_next_instr h with ⟨i, _, hi, _, _⟩ | ⟨_, _, rfl⟩
  · rw [hd] at hi; cases hi
  · refine (((changesOnly_atExecute s).trans (changesOnly_report _ s.wordAtPc)).trans (changesOnly_endStep _)).mono ?_
    simp [aroundParts]

/-- A completed step keeps every part that its instruction's frame does not name and that is not REPORTS, PC, a timer or
an input. -/
theorem step_keeps {s t : State} (h : step s = .next t) {p : Part} (hp : p ∉ .reports :: .pc :: aroundParts)
    (hparts : ∀ i, s.decoded = .instr i → p ∉ Instr.parts i s) : p.same s t := by
  cases hd : s.decoded with
  | instr i =>
    refine step_changesOnly h hd p fun hmem => ?_
    rcases List.mem_append.mp hmem with hi | haround
    · exact hparts i hd hi
    · exact hp (List.mem_cons_of_mem _ haround)
  | reject r => exact step_changesOnly_of_reject h hd p hp

theorem step_keeps_fault {s t : State} (h : step s = .next t) : t.fault = s.fault :=
  step_keeps (p := .fault) h (by decide) fun i _ => fault_not_mem_parts i s

theorem step_keeps_config {s t : State} (h : step s = .next t) : t.config = s.config :=
  step_keeps (p := .config) h (by decide) fun i _ => config_not_mem_parts i s

end Sys2Proof.Machine
end

section
/-! SUPPORT. What the instructions with more than one outcome answer, an equation per case; each holds by the model's own
test of the case. -/

namespace Sys2Proof.Machine

theorem exec_ret_of_concat {s : State} {ws : List Word} {w : Word} (h : s.stack = ws ++ [w]) :
    exec .ret s = .next (({ s with stack := ws } : State).setPc w) := by
  simp [exec, execRet, State.pop_ok h]

theorem exec_ret_of_empty {s : State} (h : s.stack = []) : exec .ret s = .fault .stackUnderflow := by
  simp [exec, execRet, State.pop_error h, raise]

theorem exec_call_of_room {s : State} (a : Addr12) (h : s.stack.length < s.config.stackDepth) :
    exec (.call a) s = .next (({ s with stack := s.stack ++ [s.pc] } : State).setPc (addr16 a)) := by
  simp [exec, execCall, State.push_ok s.pc h]

theorem exec_call_of_full {s : State} (a : Addr12) (h : s.config.stackDepth ≤ s.stack.length) :
    exec (.call a) s = .fault .stackOverflow := by
  simp [exec, execCall, State.push_error s.pc h, raise]

theorem exec_ldK_of_key {s : State} {k : Key} (x : RegIdx) (h : s.latch.key = some k) :
    exec (.ldK x) s = .next (s.setReg x (k.setWidth 8)) := by
  simp [exec, execLdK, State.awaitKey, h]

theorem exec_ldK_of_none {s : State} (x : RegIdx) (h : s.latch.key = none) :
    exec (.ldK x) s = .next (s.setPc (s.pc - 2#16)) := by
  simp [exec, execLdK, State.awaitKey, h]

theorem exec_addI_of_fits {s : State} {x : RegIdx} (h : s.i.toNat + (s.reg x).toNat ≤ 0xFFFF) :
    exec (.addI x) s = .next ((s.setI (BitVec.ofNat 16 (s.i.toNat + (s.reg x).toNat))).setReg vf
      (indexFlag (s.i.toNat + (s.reg x).toNat))) :=
  if_neg (Nat.not_lt.mpr h)

theorem exec_addI_of_overflow {s : State} {x : RegIdx} (h : 0xFFFF < s.i.toNat + (s.reg x).toNat) :
    exec (.addI x) s = .fault (.indexOverflow (s.i.toNat + (s.reg x).toNat)) :=
  if_pos h

/-- DRW faults when some sprite address does not exist (R103, 92 D8). -/
theorem exec_drw_out_of_range (s : State) (x y : RegIdx) (n : BitVec 4) (h : Config.memSize < s.i.toNat + n.toNat)
    (hn : 0 < n.toNat) : exec (.drw x y n) s = .fault (.memoryOutOfRange (max s.i.toNat Config.memSize)) := by
  simp [exec, execDrw, State.transferAddr, firstOutOfRange_some h hn, raise]

/-- What DRW did when it completed. -/
theorem exec_drw_next {s t : State} {x y : RegIdx} {n : BitVec 4} (h : exec (.drw x y n) s = .next t) :
    t = (s.show (s.drawing x y n).1).setReg vf (collisionFlag (s.drawing x y n).2) := by
  simp only [exec, execDrw] at h
  split at h
  · cases h
  · exact next_inj h

end Sys2Proof.Machine
end

section
/-! SUPPORT. Call stack, display and index register (spec/10_state.md sections 3, 5 and 7): the completed steps that write
them. -/

namespace Sys2Proof.Machine

/-- Settles O18, by the decoded word: CALL and RET by what they did when they completed, every other word by its frame. -/
theorem onlyCallPushesAndOnlyRetPops : Obligations.OnlyCallPushesAndOnlyRetPops := by
  intro s t h
  by_cases hw : s.decoded = .instr .ret ∨ ∃ a, s.decoded = .instr (.call a)
  · rcases step_next_instr h with ⟨i, u, hi, hu, rfl⟩ | ⟨r, hr, _⟩
    · rcases hw with hret | ⟨a, hcall⟩
      · cases hi.symm.trans hret
        obtain ⟨ws, w, hs, rfl⟩ := exec_ret_next hu
        exact .inr (.inr ⟨hret, hs⟩)
      · cases hi.symm.trans hcall
        obtain ⟨_, rfl⟩ := exec_call_next hu
        exact .inr (.inl ⟨a, hcall, rfl⟩)
    · simp [hr] at hw
  · refine .inl (step_keeps (p := .stack) h (by decide) fun i hd hmem => hw ?_)
    rcases stack_mem_parts hmem with rfl | ⟨a, rfl⟩
    · exact .inl hd
    · exact .inr ⟨a, hd⟩

/-- Settles O19: the frame for every other word, and CLS and DRW both set DIRTY. -/
theorem onlyClsAndDrwWriteTheFramebuffer : Obligations.OnlyClsAndDrwWriteTheFramebuffer := by
  intro s t h
  constructor
  · rintro ⟨hcls, hdrw⟩
    have hno : ∀ i, s.decoded = .instr i → ¬(.framebuffer ∈ Instr.parts i s ∨ .dirty ∈ Instr.parts i s) := by
      intro i hd hmem
      rcases framebuffer_or_dirty_mem_parts hmem with rfl | ⟨x, y, n, rfl⟩
      · exact hcls hd
      · exact hdrw x y n hd
    exact ⟨step_keeps (p := .framebuffer) h (by decide) fun i hd => (not_or.mp (hno i hd)).1,
      step_keeps (p := .dirty) h (by decide) fun i hd => (not_or.mp (hno i hd)).2⟩
  · intro hw
    rcases step_next_instr h with ⟨i, u, hi, hu, rfl⟩ | ⟨r, hr, _⟩
    · rcases hw with hcls | ⟨x, y, n, hdrw⟩
      · cases hi.symm.trans hcls
        cases next_inj hu
        rfl
      · cases hi.symm.trans hdrw
        cases exec_drw_next hu
        rfl
    · simp [hr] at hw

/-- Settles O21: I is in the frame of no other instruction. -/
theorem indexIsWrittenByThreeInstructions : Obligations.IndexIsWrittenByThreeInstructions := by
  intro s t h hldI haddI hldF
  refine step_keeps (p := .index) h (by decide) fun i hd hmem => ?_
  rcases index_mem_parts hmem with ⟨a, rfl⟩ | ⟨x, rfl⟩ | ⟨x, rfl⟩
  · exact hldI a hd
  · exact haddI x hd
  · exact hldF x hd

end Sys2Proof.Machine
end

section
/-! SUPPORT. FAULT and the configuration through the host's operations (spec/10_state.md sections 8 and 9). -/

namespace Sys2Proof.Machine

/-! ## One host operation -/

theorem transact_of_next {s t : State} (rest : State) (h : step s = .next t) : transact rest s = t := by
  obtain ⟨hn, _⟩ := step_next_cases h
  simp [transact, hn, h]

theorem transact_of_halted {s : State} {f : Fault} (rest : State) (h : s.fault = some f) : transact rest s = s := by
  simp [transact, h]

theorem transact_of_fault {s : State} {f : Fault} (rest : State) (hn : s.fault = none) (h : step s = .fault f) :
    transact rest s = s.halt f rest := by
  simp [transact, hn, h]

theorem step_not_refused (s : State) (r : Refusal) : step s ≠ .refused r := by
  cases hn : s.fault with
  | some f => simp [step_of_halted hn]
  | none =>
    by_cases hf : Fetchable s
    · rw [step_of_fetchable hn hf]
      cases hd : s.decoded with
      | instr i =>
        rw [executeWord_decoded hd]
        cases e : exec i s.atExecute with
        | refused q => exact absurd e (exec_not_refused i _ q)
        | _ => simp [onNext]
      | reject q => simp [executeWord_reject (s := s.atExecute) hd, onNext]
    · simp [step_of_not_fetchable hn hf]

theorem transact_cases (rest s : State) :
    (∃ f, s.fault = some f ∧ transact rest s = s) ∨ (∃ t, step s = .next t ∧ transact rest s = t) ∨
    ∃ f, step s = .fault f ∧ transact rest s = s.halt f rest := by
  cases hn : s.fault with
  | some f => exact .inl ⟨f, rfl, transact_of_halted rest hn⟩
  | none =>
    cases h : step s with
    | next t => exact .inr (.inl ⟨t, rfl, transact_of_next rest h⟩)
    | fault f => exact .inr (.inr ⟨f, rfl, transact_of_fault rest hn h⟩)
    | refused r => exact absurd h (step_not_refused s r)

theorem loadRom_of_halted {s : State} {f : Fault} (image : List Byte) (h : s.fault = some f) :
    loadRom image s = .refused (.coreHalted f) := by
  simp [loadRom, h]

/-- A program load that is taken. -/
theorem loadRom_next {s t : State} {image : List Byte} (h : loadRom image s = .next t) :
    t = ({ s with mem := placeBytes s.config.font s.mem Config.programBase image } : State).setPc
      (BitVec.ofNat 16 Config.programBase) := by
  unfold loadRom at h
  split at h
  · cases h
  · split at h
    · exact next_inj h
    · cases h

theorem transact_keeps_config (rest s : State) : (transact rest s).config = s.config := by
  rcases transact_cases rest s with ⟨_, _, e⟩ | ⟨t, h, e⟩ | ⟨_, _, e⟩ <;> rw [e]
  · exact step_keeps_config h
  · rfl

theorem loadRom_keeps_config {s t : State} {image : List Byte} (h : loadRom image s = .next t) :
    t.config = s.config := by
  cases loadRom_next h; rfl

theorem hostOp_keeps_config (s : State) (op : HostOp) : (hostOp s op).config = s.config := by
  cases op with
  | step rest => exact transact_keeps_config rest s
  | loadRom image =>
    cases h : loadRom image s with
    | next t => simpa [hostOp, h] using loadRom_keeps_config h
    | _ => simp [hostOp, h]
  | readDisplay => rfl
  | announce inp => rfl

/-- A halted core stays halted by its fault: it takes no step and no program (R105). -/
theorem hostOp_keeps_halt {s : State} {f : Fault} (h : s.fault = some f) (op : HostOp) :
    (hostOp s op).fault = some f := by
  cases op with
  | step rest => rw [hostOp, transact_of_halted rest h, h]
  | loadRom image => simp [hostOp, loadRom_of_halted image h, h]
  | readDisplay => exact h
  | announce inp => exact h

/-! ## Runs -/

/-- What every host operation keeps, every sequence of them keeps. -/
theorem hostRun_induction {P : State → Prop} {s : State} {ops : List HostOp} (hs : P s)
    (hop : ∀ t, P t → ∀ op ∈ ops, P (hostOp t op)) : P (hostRun s ops) :=
  List.foldlRecOn ops hostOp hs hop

/-- Settles O10: no instruction's frame names FAULT, and a halted core takes no step and no program. -/
theorem faultIsSetOnceAndNeverCleared : Obligations.FaultIsSetOnceAndNeverCleared := by
  refine ⟨rfl, ?_, ?_, ?_, ?_⟩
  · intro s t h
    obtain ⟨hn, _⟩ := step_next_cases h
    exact ⟨hn, (step_keeps_fault h).trans hn⟩
  · intro rest s f h
    cases hn : s.fault with
    | some g =>
      rw [step_of_halted hn] at h
      cases h
      rw [transact_of_halted rest hn, hn]
    | none => rw [transact_of_fault rest hn h]; rfl
  · intro s f ops h
    exact hostRun_induction (P := fun t => t.fault = some f) h fun _ ht op _ => hostOp_keeps_halt ht op
  · intro s f h
    exact ⟨step_of_halted h, fun rest => transact_of_halted rest h⟩

/-- Settles O24: no instruction's frame names the configuration, and no host operation writes it. -/
theorem configurationIsFixedForLife : Obligations.ConfigurationIsFixedForLife := by
  refine ⟨fun _ _ => step_keeps_config, transact_keeps_config, fun _ _ _ => loadRom_keeps_config, fun _ => rfl,
    fun _ _ => rfl, fun s ops => ?_⟩
  exact hostRun_induction (P := fun t => t.config = s.config) rfl fun t ht op _ => (hostOp_keeps_config t op).trans ht

end Sys2Proof.Machine
end

section
/-! SUPPORT. The flag register (spec/10_state.md section 2): the value each of the seven flag instructions leaves in VF, and
that every other instruction writes VF only as a destination it names. -/

namespace Sys2Proof.Machine

theorem flagByte_decide (p : Prop) [Decidable p] : flagByte (decide p) = if p then 1#8 else 0#8 := by
  by_cases h : p <;> simp [h]

theorem flagByte_eq_one_iff (c : Bool) : flagByte c = 1#8 ↔ c = true := by cases c <;> decide

/-- The bit out of SHR is the remainder by 2 (R86). -/
theorem lowBitFlag_eq (a : Byte) : lowBitFlag a = BitVec.ofNat 8 (a.toNat % 2) := by
  rw [lowBitFlag, BitVec.getLsbD, Nat.testBit_zero, flagByte_decide]
  rcases Nat.mod_two_eq_zero_or_one a.toNat with h | h <;> simp [h]

/-- The bit out of SHL is the quotient by 128 (R88). -/
theorem highBitFlag_eq (a : Byte) : highBitFlag a = BitVec.ofNat 8 (a.toNat / 128) := by
  have ha := a.isLt
  rw [highBitFlag, BitVec.getLsbD, Nat.testBit_eq_decide_div_mod_eq, flagByte_decide]
  have h : a.toNat / 128 = 0 ∨ a.toNat / 128 = 1 := by omega
  rcases h with h | h <;> simp [h]

@[simp] theorem State.setRegFlag_reg_vf (s : State) (x : RegIdx) (result flag : Byte) :
    (s.setRegFlag x result flag).reg vf = flag := by
  simp [State.setRegFlag_reg]

/-- What ADD_I did when it completed: I is the exact sum, and the flag speaks of it (R75). -/
theorem exec_addI_next {s t : State} {x : RegIdx} (h : exec (.addI x) s = .next t) :
    t.i.toNat = s.i.toNat + (s.reg x).toNat ∧ t.reg vf = indexFlag t.i.toNat := by
  rcases Nat.lt_or_ge 0xFFFF (s.i.toNat + (s.reg x).toNat) with hov | hfits
  · rw [exec_addI_of_overflow hov] at h; cases h
  · rw [exec_addI_of_fits hfits] at h
    cases next_inj h
    have hi : (BitVec.ofNat 16 (s.i.toNat + (s.reg x).toNat)).toNat = s.i.toNat + (s.reg x).toNat :=
      (BitVec.toNat_ofNat ..).trans (Nat.mod_eq_of_lt (by omega))
    simp [hi]

/-- DRW hits exactly when it turns some set pixel off (R103). -/
theorem drawing_hit_iff (s : State) (x y : RegIdx) (n : BitVec 4) :
    (s.drawing x y n).2 = true ↔ ∃ row col, row < 32 ∧ col < 64 ∧ s.fb.pixel row col = true ∧
      (s.drawing x y n).1.pixel row col = false := by
  obtain ⟨hpixel, hhit⟩ := drawing_spec s x y n
  rw [hhit]
  refine exists₂_congr fun row col => and_congr_right fun hrow => and_congr_right fun _ => and_congr_right fun hset => ?_
  simp [hpixel row col hrow, hset]

/-- The instructions that set a flag (R19). -/
def Instr.setsFlag : Instr → Bool
  | .addReg _ _ | .sub _ _ | .subn _ _ | .shr _ _ | .shl _ _ | .addI _ | .drw _ _ _ => true
  | _ => false

theorem vf_mem_parts {i : Instr} {s : State} (h : .reg vf ∈ Instr.parts i s) :
    Instr.setsFlag i = true ∨ vf ∈ Instr.destinations i := by
  cases i with
  | addReg _ _ | sub _ _ | subn _ _ | shr _ _ | shl _ _ | addI _ | drw _ _ _ => exact .inl rfl
  | _ => simp_all [Instr.parts, Instr.destinations, bytesFrom, regsTo]

/-- Settles O22: the flag is written last by the seven flag instructions, and every other one keeps its frame. -/
theorem flagIsASideEffectOfSevenInstructions : Obligations.FlagIsASideEffectOfSevenInstructions := by
  intro i s t h
  have hframe : Instr.setsFlag i = false → vf ∉ Instr.destinations i → t.reg vf = s.reg vf := fun hf hd =>
    exec_changesOnly i h (.reg vf) fun hmem => by simpa [hf, hd] using vf_mem_parts hmem
  cases i with
  | addReg x y => cases next_inj h; exact (State.setRegFlag_reg_vf ..).trans (flagByte_decide _)
  | sub x y => cases next_inj h; exact (State.setRegFlag_reg_vf ..).trans (flagByte_decide _)
  | subn x y => cases next_inj h; exact (State.setRegFlag_reg_vf ..).trans (flagByte_decide _)
  | shr x y => cases next_inj h; exact (State.setRegFlag_reg_vf ..).trans (lowBitFlag_eq _)
  | shl x y => cases next_inj h; exact (State.setRegFlag_reg_vf ..).trans (highBitFlag_eq _)
  | addI x => exact (exec_addI_next h).2.trans (flagByte_decide _)
  | drw x y n =>
    cases exec_drw_next h
    rw [State.setReg_reg_self, collisionFlag]
    refine ⟨?_, (flagByte_eq_one_iff _).trans (drawing_hit_iff s x y n)⟩
    cases (s.drawing x y n).2
    · exact .inr rfl
    · exact .inl rfl
  | _ => exact hframe rfl

end Sys2Proof.Machine
end

section
/-! SUPPORT. REPORTS (spec/10_state.md section 8): only an unrecognized word is reported, and no instruction reads what was
reported. -/

namespace Sys2Proof.Machine

/-- The state with another report list: what an instruction does must not depend on it (R28). -/
def State.withReports (s : State) (ws : List Word) : State := { s with reports := ws }

section WithReports
variable (s : State) (ws : List Word)

theorem State.storeBytes_withReports (a : Nat) (us : List Byte) :
    (s.withReports ws).storeBytes a us = (s.storeBytes a us).map (·.withReports ws) := by
  induction us generalizing s a with
  | nil => rfl
  | cons u us ih =>
    by_cases ha : a < Config.memSize
    · rw [State.storeBytes, State.storeBytes, State.memWrite_ok u ha, State.memWrite_ok u ha]
      exact ih { s with mem := s.mem.write s.config.font a u } (a + 1)
    · rw [State.storeBytes, State.storeBytes, State.memWrite_error u (Nat.not_lt.mp ha),
        State.memWrite_error u (Nat.not_lt.mp ha)]
      rfl

theorem State.loadRegs_withReports (ks : List RegIdx) :
    (s.withReports ws).loadRegs ks = (s.loadRegs ks).map (·.withReports ws) := by
  induction ks generalizing s with
  | nil => rfl
  | cons k ks ih =>
    have hread : (s.withReports ws).memRead ((s.withReports ws).i.toNat + k.toNat) =
        s.memRead (s.i.toNat + k.toNat) := rfl
    rw [State.loadRegs, State.loadRegs, hread]
    cases s.memRead (s.i.toNat + k.toNat) with
    | error f => rfl
    | ok u => exact ih (s.setReg k u)

theorem orRaise_map (e : Except Fault State) (g : State → State) : orRaise (e.map g) = onNext g (orRaise e) := by
  cases e <;> rfl

/-- An instruction does the same whatever was reported, and leaves the reports as they were. -/
theorem exec_withReports (i : Instr) : exec i (s.withReports ws) = onNext (·.withReports ws) (exec i s) := by
  cases i with
  | ret =>
    rcases List.eq_nil_or_concat' s.stack with hs | ⟨rs, w, hs⟩
    · rw [exec_ret_of_empty hs]
      exact exec_ret_of_empty (s := s.withReports ws) hs
    · rw [exec_ret_of_concat hs]
      exact exec_ret_of_concat (s := s.withReports ws) hs
  | call a =>
    rcases Nat.lt_or_ge s.stack.length s.config.stackDepth with hroom | hfull
    · rw [exec_call_of_room a hroom]
      exact exec_call_of_room (s := s.withReports ws) a hroom
    · rw [exec_call_of_full a hfull]
      exact exec_call_of_full (s := s.withReports ws) a hfull
  | addI x =>
    rcases Nat.lt_or_ge 0xFFFF (s.i.toNat + (s.reg x).toNat) with hov | hfits
    · rw [exec_addI_of_overflow hov]
      exact exec_addI_of_overflow (s := s.withReports ws) hov
    · rw [exec_addI_of_fits hfits]
      exact exec_addI_of_fits (s := s.withReports ws) hfits
  | drw x y n =>
    by_cases hrange : s.i.toNat + n.toNat ≤ Config.memSize ∨ n.toNat = 0
    · rw [exec_drw_of_range s x y n hrange]
      exact exec_drw_of_range (s.withReports ws) x y n hrange
    · rw [exec_drw_out_of_range s x y n (by omega) (by omega)]
      exact exec_drw_out_of_range (s.withReports ws) x y n (by show _ < s.i.toNat + _; omega) (by omega)
  | ldK x =>
    cases hkey : s.latch.key with
    | some k =>
      rw [exec_ldK_of_key x hkey]
      exact exec_ldK_of_key (s := s.withReports ws) x hkey
    | none =>
      rw [exec_ldK_of_none x hkey]
      exact exec_ldK_of_none (s := s.withReports ws) x hkey
  | ldB x => exact (congrArg orRaise (s.storeBytes_withReports ws _ _)).trans (orRaise_map _ _)
  | ldMemStore x => exact (congrArg orRaise (s.storeBytes_withReports ws _ _)).trans (orRaise_map _ _)
  | ldMemLoad x => exact (congrArg orRaise (s.loadRegs_withReports ws _)).trans (orRaise_map _ _)
  | _ => rfl

end WithReports

/-- Settles O23: no instruction's frame names REPORTS, a word that is no instruction is reported, and running an
instruction commutes with putting other reports in place. -/
theorem reportsOnlyGrowAndAreNotRead : Obligations.ReportsOnlyGrowAndAreNotRead := by
  refine ⟨rfl, fun s t h => ?_, fun i s ws => exec_withReports s ws i⟩
  rcases step_next_instr h with ⟨i, u, hi, hu, rfl⟩ | ⟨r, hr, rfl⟩
  · have hkept : u.reports = s.reports := exec_changesOnly i hu .reports (reports_not_mem_parts i _)
    exact ⟨fun _ _ => hkept, fun hno => absurd hi (hno i)⟩
  · exact ⟨fun i hi => (by cases hr.symm.trans hi), fun _ => rfl⟩

end Sys2Proof.Machine
end

section
/-! SUPPORT. The core just created (spec/10_state.md section 10): its font and zeros, the invariant, and reset. -/

namespace Sys2Proof.Machine

theorem Configuration.wf_iff {c : Configuration} :
    c.wf = true ↔ 1 ≤ c.stackDepth ∧ c.font.base.toNat + 80 ≤ 0x200 ∧ c.font.glyphs.length = 80 := by
  simp [Configuration.wf, stackDepthWf, fontBaseWf, fontGlyphsWf, Config.programBase, and_assoc]

theorem initialByte_of_mem {f : Font} {j : Nat} (h : j < 80) :
    initialByte f (f.base.toNat + j) = f.glyphs.getD j 0#8 := by
  simp [initialByte, h]

theorem initialByte_of_outside {f : Font} {a : Nat} (h : a < f.base.toNat ∨ f.base.toNat + 80 ≤ a) :
    initialByte f a = 0#8 :=
  if_neg (by omega)

@[simp] theorem State.created_reg (c : Configuration) (r : RegIdx) : (State.created c).reg r = 0#8 :=
  Vector.getElem_replicate ..

theorem configurationAtReset_wf : configurationAtReset.wf = true :=
  Configuration.wf_iff.mpr (by decide)

/-- Two cores just created differ in their configurations and in memory below the program (R33). -/
theorem changesOnly_created {c d : Configuration} (hc : c.wf = true) (hd : d.wf = true) :
    ChangesOnly (State.created c) (State.created d) (.config :: bytesFrom 0 0x200) := by
  obtain ⟨_, hcfont, _⟩ := Configuration.wf_iff.mp hc
  obtain ⟨_, hdfont, _⟩ := Configuration.wf_iff.mp hd
  intro p hp
  cases p with
  | config => simp at hp
  | byte a =>
    have ha := not_mem_bytesFrom (List.not_mem_of_not_mem_cons hp)
    show initialByte d.font a = initialByte c.font a
    rw [initialByte_of_outside (by omega), initialByte_of_outside (by omega)]
  | _ => rfl

/-- Settles O56: the created core's memory reads as `initialByte` of its own font, below 0x200 by R9. -/
theorem createdCoreHoldsTheFontItIsGiven : Obligations.CreatedCoreHoldsTheFontItIsGiven := by
  intro c hc
  obtain ⟨_, hfont, _⟩ := Configuration.wf_iff.mp hc
  refine ⟨rfl, fun g k hg hk => ⟨by omega, ?_⟩, fun a ha => ?_, changesOnly_created configurationAtReset_wf hc⟩
  · rw [State.created_byteAt, Nat.add_assoc, initialByte_of_mem (by omega)]
  · rw [State.created_byteAt, initialByte_of_outside ha]

/-- An empty memory and an empty call stack meet the invariant, whatever the configuration (R33). -/
theorem created_inv {c : Configuration} (hc : c.wf = true) : Inv (State.created c) where
  mem_wf := State.created_memWf c
  stack_bounded := Nat.zero_le _
  returns_in_memory := fun _ hw => absurd hw List.not_mem_nil
  pc_bounded := show (BitVec.ofNat 16 Config.programBase).toNat ≤ 0x10FE by decide
  config_wf := hc

/-- Settles O14: reset is the core created with the spec's own values, which meet R9's constraints. -/
theorem invariantHoldsAtReset : Obligations.InvariantHoldsAtReset :=
  ⟨created_inv configurationAtReset_wf, fun _ => created_inv⟩

/-- Settles O17, part by part; memory is the font's region and zeros, the pixels those of a cleared screen. -/
theorem resetIsTheCoreJustCreated : Obligations.ResetIsTheCoreJustCreated := by
  refine ⟨State.created_reg _, rfl, rfl, rfl, rfl, fun a => ?_, rfl, rfl, rfl, fun row col => pixel_clear row col, rfl, rfl,
    rfl⟩
  exact State.created_byteAt configurationAtReset a

end Sys2Proof.Machine
end

section
/-! SUPPORT. Memory (spec/20_memory.md): a placed word is the word fetched, only the two stores write memory, and every
completed step keeps the invariant. -/

namespace Sys2Proof.Machine

/-! ## The invariant (R22, R35, R61) -/

/-- What a completed step at an instruction did. -/
theorem step_next_of_decoded {s t : State} {i : Instr} (h : step s = .next t) (hd : s.decoded = .instr i) :
    ∃ u, exec i s.atExecute = .next u ∧ t = u.endStep := by
  rcases step_next_instr h with ⟨j, u, hj, hu, ht⟩ | ⟨r, hr, _⟩
  · cases hd.symm.trans hj
    exact ⟨u, hu, ht⟩
  · cases hd.symm.trans hr

/-- Past a word that was fetched PC has not wrapped (R56). -/
theorem Fetchable.pc_add_two {s : State} (h : Fetchable s) : (s.pc + 2#16).toNat = s.pc.toNat + 2 := by
  have hpc : s.pc.toNat + 1 < 4096 := h
  rw [BitVec.toNat_add, BitVec.toNat_ofNat]
  omega

/-- Where an instruction leaves PC: as it was, one word on or back, at a target of R61 or at a return address. -/
theorem exec_pc_next {i : Instr} {s t : State} (h : exec i s = .next t) :
    (t.pc = s.pc ∨ t.pc = s.pc + 2#16 ∨ t.pc = s.pc - 2#16) ∨ t.pc.toNat ≤ 0x10FE ∨ t.pc ∈ s.stack := by
  have htarget (a : Addr12) : (addr16 a).toNat ≤ 0x10FE := by
    have ha := a.isLt
    rw [addr16_toNat]
    omega
  have hskip (c : Bool) : (s.skipIf c).pc = s.pc ∨ (s.skipIf c).pc = s.pc + 2#16 := by
    cases c
    · exact .inl rfl
    · exact .inr rfl
  cases i with
  | ret =>
    obtain ⟨ws, w, hs, rfl⟩ := exec_ret_next h
    exact .inr (.inr (by simp [hs]))
  | call a =>
    obtain ⟨_, rfl⟩ := exec_call_next h
    exact .inr (.inl (htarget a))
  | jp a =>
    cases next_inj h
    exact .inr (.inl (htarget a))
  | jpOff a =>
    cases next_inj h
    have hsum := s.offsetTarget_toNat a
    have ha := a.isLt
    have hv := (s.reg (s.offsetReg a)).isLt
    exact .inr (.inl (show (s.offsetTarget a).toNat ≤ 0x10FE by omega))
  | seImm _ _ | sneImm _ _ | seReg _ _ | sneReg _ _ | skp _ | sknp _ =>
    cases next_inj h
    exact .inl ((hskip _).imp_right .inl)
  | ldK x =>
    cases hkey : s.latch.key with
    | some k =>
      rw [exec_ldK_of_key x hkey] at h
      cases next_inj h
      exact .inl (.inl rfl)
    | none =>
      rw [exec_ldK_of_none x hkey] at h
      cases next_inj h
      exact .inl (.inr (.inr rfl))
  | _ => exact .inl (.inl (exec_changesOnly _ h .pc (by simp [Instr.parts, bytesFrom, regsTo])))

/-- PC after a completed step is at most the highest target of R61, if every return address exists. -/
theorem step_pc_bounded {s t : State} (h : step s = .next t)
    (hreturns : ∀ w ∈ s.stack, 2 ≤ w.toNat ∧ w.toNat ≤ Config.memSize) : t.pc.toNat ≤ 0x10FE := by
  obtain ⟨_, hfetch, _⟩ := step_next_cases h
  have hpc : s.pc.toNat + 1 < 4096 := hfetch
  have hnext : s.atExecute.pc.toNat = s.pc.toNat + 2 := hfetch.pc_add_two
  rcases step_next_instr h with ⟨i, u, _, hu, rfl⟩ | ⟨r, _, rfl⟩
  · rw [State.endStep_pc]
    rcases exec_pc_next hu with (e | e | e) | hle | hmem
    · rw [e]; omega
    · rw [e, BitVec.toNat_add, BitVec.toNat_ofNat]; omega
    · rw [e, BitVec.toNat_sub, BitVec.toNat_ofNat]; omega
    · exact hle
    · have hle : u.pc.toNat ≤ 4096 := (hreturns _ hmem).2
      omega
  · show s.atExecute.pc.toNat ≤ 0x10FE
    omega

theorem step_keeps_memWf {s t : State} (h : step s = .next t) (hm : s.memWf = true) : t.memWf = true := by
  rcases step_next_instr h with ⟨i, u, _, hu, rfl⟩ | ⟨r, _, rfl⟩
  · exact (exec_mem_wf i hu hm : u.memWf = true)
  · exact hm

/-- A completed step keeps the call stack within its depth: CALL completes only where there is room (R23). -/
theorem step_keeps_stack_bounded {s t : State} (h : step s = .next t) (hs : s.stack.length ≤ s.config.stackDepth) :
    t.stack.length ≤ t.config.stackDepth := by
  rw [step_keeps_config h]
  rcases onlyCallPushesAndOnlyRetPops s t h with hsame | ⟨a, hd, hpush⟩ | ⟨_, hpop⟩
  · rwa [hsame]
  · obtain ⟨u, hu, _⟩ := step_next_of_decoded h hd
    have hroom : s.stack.length < s.config.stackDepth := (exec_call_next hu).1
    simpa [hpush] using hroom
  · simp only [hpop, List.length_append, List.length_singleton] at hs
    omega

/-- A completed step keeps every return address just past a word of memory: CALL pushes the address after its own. -/
theorem step_keeps_returns {s t : State} (h : step s = .next t)
    (hs : ∀ w ∈ s.stack, 2 ≤ w.toNat ∧ w.toNat ≤ Config.memSize) :
    ∀ w ∈ t.stack, 2 ≤ w.toNat ∧ w.toNat ≤ Config.memSize := by
  rcases onlyCallPushesAndOnlyRetPops s t h with hsame | ⟨_, _, hpush⟩ | ⟨_, hpop⟩
  · rwa [hsame]
  · obtain ⟨_, hfetch, _⟩ := step_next_cases h
    have hpc : s.pc.toNat + 1 < Config.memSize := hfetch
    have hnext := hfetch.pc_add_two
    intro w hw
    rw [hpush, List.mem_append, List.mem_singleton] at hw
    rcases hw with hold | rfl
    · exact hs w hold
    · omega
  · exact fun w hw => hs w (hpop ▸ List.mem_append_left _ hw)

/-- Settles O15, field by field: the stack by what CALL and RET do to it, PC by where an instruction can leave it. -/
theorem everyStepKeepsTheInvariant : Obligations.EveryStepKeepsTheInvariant := fun _ _ hinv h =>
  { mem_wf := step_keeps_memWf h hinv.mem_wf
    stack_bounded := step_keeps_stack_bounded h hinv.stack_bounded
    returns_in_memory := step_keeps_returns h hinv.returns_in_memory
    pc_bounded := step_pc_bounded h hinv.returns_in_memory
    config_wf := (congrArg Configuration.wf (step_keeps_config h)).trans hinv.config_wf }

/-! ## The word placed at PC (R38, R56) -/

/-- The word of every instruction decodes to it, under either value of `P_STRICT_SKIP_REG`: every operand is legal, and
each instruction has its law. -/
theorem decodeWith_encode (strict : Bool) (i : Instr) : decodeWith strict (encode i) = .instr i :=
  match i with
  | .cls => Laws.RoundTrip.cls rfl strict
  | .ret => Laws.RoundTrip.ret rfl strict
  | .jp nnn => Laws.RoundTrip.jp nnn rfl strict
  | .call nnn => Laws.RoundTrip.call nnn rfl strict
  | .seImm x nn => Laws.RoundTrip.seImm x nn rfl strict
  | .sneImm x nn => Laws.RoundTrip.sneImm x nn rfl strict
  | .seReg x y => Laws.RoundTrip.seReg x y rfl strict
  | .ldImm x nn => Laws.RoundTrip.ldImm x nn rfl strict
  | .addImm x nn => Laws.RoundTrip.addImm x nn rfl strict
  | .ldReg x y => Laws.RoundTrip.ldReg x y rfl strict
  | .orReg x y => Laws.RoundTrip.orReg x y rfl strict
  | .andReg x y => Laws.RoundTrip.andReg x y rfl strict
  | .xorReg x y => Laws.RoundTrip.xorReg x y rfl strict
  | .addReg x y => Laws.RoundTrip.addReg x y rfl strict
  | .sub x y => Laws.RoundTrip.sub x y rfl strict
  | .shr x y => Laws.RoundTrip.shr x y rfl strict
  | .subn x y => Laws.RoundTrip.subn x y rfl strict
  | .shl x y => Laws.RoundTrip.shl x y rfl strict
  | .sneReg x y => Laws.RoundTrip.sneReg x y rfl strict
  | .ldI nnn => Laws.RoundTrip.ldI nnn rfl strict
  | .jpOff nnn => Laws.RoundTrip.jpOff nnn rfl strict
  | .rnd x nn => Laws.RoundTrip.rnd x nn rfl strict
  | .drw x y n => Laws.RoundTrip.drw x y n rfl strict
  | .skp x => Laws.RoundTrip.skp x rfl strict
  | .sknp x => Laws.RoundTrip.sknp x rfl strict
  | .ldVxDt x => Laws.RoundTrip.ldVxDt x rfl strict
  | .ldK x => Laws.RoundTrip.ldK x rfl strict
  | .ldDt x => Laws.RoundTrip.ldDt x rfl strict
  | .ldSt x => Laws.RoundTrip.ldSt x rfl strict
  | .addI x => Laws.RoundTrip.addI x rfl strict
  | .ldF x => Laws.RoundTrip.ldF x rfl strict
  | .ldB x => Laws.RoundTrip.ldB x rfl strict
  | .ldMemStore x => Laws.RoundTrip.ldMemStore x rfl strict
  | .ldMemLoad x => Laws.RoundTrip.ldMemLoad x rfl strict

/-- A whole word is placed high byte first (R38). -/
theorem State.withFetchWord_toNat (s : State) (w : Word) :
    s.withFetchWord 16 w.toNat = { s with mem := placeBytes s.config.font s.mem s.pc.toNat [w.hi, w.lo] } := by
  have hw : BitVec.ofNat 16 (w.toNat % 2 ^ 16) = w := by
    rw [Nat.mod_eq_of_lt w.isLt, BitVec.ofNat_toNat, BitVec.setWidth_eq]
  rw [State.withFetchWord, State.storeFetchWord, hw]

theorem State.wordAtPc_withFetchWord {s : State} (hm : s.memWf = true) (hfetch : Fetchable s) (w : Word) :
    (s.withFetchWord 16 w.toNat).wordAtPc = w := by
  have hfit : s.pc.toNat + [w.hi, w.lo].length ≤ Config.memSize := hfetch
  rw [State.withFetchWord_toNat, State.wordAtPc, State.byteAt_placeBytes hm _ _ hfit,
    State.byteAt_placeBytes hm _ _ hfit]
  simp

/-- Settles O7: the bytes placed are the word's, and they read back in a canonical memory. -/
theorem placedWordIsTheWordFetched : Obligations.PlacedWordIsTheWordFetched := by
  intro s i hm hfetch
  have hword := State.wordAtPc_withFetchWord hm hfetch (encode i)
  refine ⟨hword, ?_, ?_⟩
  · rw [State.decoded, hword]
    exact decodeWith_encode _ i
  · rw [State.withFetchWord_toNat]
    exact changesOnly_placeBytes s s.pc.toNat [(encode i).hi, (encode i).lo]

/-! ## The stores (R35, R90, R92) -/

/-- Only the frames of the two stores name a byte, each the bytes it stores to. -/
theorem byte_mem_parts {i : Instr} {s : State} {a : Nat} (h : .byte a ∈ Instr.parts i s) :
    (∃ x, i = .ldB x ∧ .byte a ∈ bytesFrom s.i.toNat 3) ∨
      ∃ x, i = .ldMemStore x ∧ .byte a ∈ bytesFrom s.i.toNat (x.toNat + 1) := by
  cases i with
  | ldB x => exact .inl ⟨x, rfl, h⟩
  | ldMemStore x => exact .inr ⟨x, rfl, h⟩
  | _ => simp [Instr.parts, regsTo] at h

/-- Settles O20: a byte is in the frame of no other instruction, and of these two only inside their bytes at I. -/
theorem onlyStoresWriteMemory : Obligations.OnlyStoresWriteMemory := by
  intro s t h a
  by_cases hw : ∃ i, s.decoded = .instr i ∧ .byte a ∈ Instr.parts i s
  · obtain ⟨i, hd, hmem⟩ := hw
    rcases byte_mem_parts hmem with ⟨x, rfl, hx⟩ | ⟨x, rfl, hx⟩
    · exact .inr (.inl ⟨x, hd, hx⟩)
    · exact .inr (.inr ⟨x, hd, hx⟩)
  · have hp : Part.byte a ∉ .reports :: .pc :: aroundParts := by simp [aroundParts]
    exact .inl (step_keeps h hp fun i hd hmem => hw ⟨i, hd, hmem⟩)

end Sys2Proof.Machine
end

section
/-! SUPPORT. Encoding (spec/30_encoding.md): the decoder, the encoder and the opcode table of R51 describe the same words.
Every format is a word put together from its own fields (R48), so each clause of the decoder gives back its word. -/

namespace Sys2Proof.Machine

/-! ## From an instruction to its word and back (R47, R51) -/

/-- Two bytes are one word, and what follows them is left (R38, R47). -/
theorem decodeBytes_hi_lo_append (w : Word) (rest : List Byte) :
    decodeBytes ([w.hi, w.lo] ++ rest) = (decode w, rest) := by
  rw [List.cons_append, List.singleton_append, decodeBytes, Word.ofBytes_hi_lo]

/-- A table row's 16 bits are the word itself. -/
theorem decodeTableWord_toNat {w : Word} {i : Instr} (h : decode w = .instr i) :
    decodeTableWord 16 w.toNat = some i := by
  have hw : BitVec.ofNat 16 (w.toNat % 2 ^ 16) = w := by
    rw [Nat.mod_eq_of_lt w.isLt, BitVec.ofNat_toNat, BitVec.setWidth_eq]
  have hbytes := decodeBytes_hi_lo_append w []
  rw [List.append_nil] at hbytes
  simp only [decodeTableWord, hw, hbytes, h]

/-- Settles O1: the round trip of the word, carried over to its two bytes and to its 16 bits. -/
theorem decodeOfEncodeIsTheInstruction : Obligations.DecodeOfEncodeIsTheInstruction := by
  intro i _
  have hword : decode (encode i) = .instr i := decodeWith_encode strictSkipReg i
  refine ⟨fun strict => decodeWith_encode strict i, fun rest => ?_, decodeTableWord_toNat hword⟩
  rw [encodeBytes, decodeBytes_hi_lo_append, hword]

/-! ## From a word to its instruction and back (R48, R52) -/

section Formats
variable {w : Word} {op : BitVec 4}

theorem address_format (hop : w.op = op) : op ++ w.nnn = w := hop ▸ w.eq_address.symm

theorem byte_format (hop : w.op = op) : op ++ w.x ++ w.nn = w := hop ▸ w.eq_byte.symm

theorem selector_format {nn : Byte} (h : w.op = op ∧ w.nn = nn) : op ++ w.x ++ nn = w :=
  h.2 ▸ byte_format h.1

theorem nibble_format {n : BitVec 4} (h : w.op = op ∧ w.n = n) : op ++ w.x ++ w.y ++ n = w :=
  h.1 ▸ h.2 ▸ w.eq_nibbles.symm

end Formats

section Classes
variable {w : Word} {i : Instr}

theorem encode_of_decodeClass0 (h : decodeClass0 w = .instr i) : encode i = w := by
  unfold decodeClass0 at h
  split_ifs at h with hcls hret <;> cases h
  · exact hcls.symm
  · exact hret.symm

theorem encode_of_decodeClass8 (hop : w.op = 0x8#4) (h : decodeClass8 w = .instr i) : encode i = w := by
  unfold decodeClass8 at h
  split at h <;> cases h
  all_goals exact nibble_format ⟨hop, BitVec.eq_of_toNat_eq ‹_›⟩

theorem encode_of_decodeClassE (hop : w.op = 0xE#4) (h : decodeClassE w = .instr i) : encode i = w := by
  unfold decodeClassE at h
  split_ifs at h with hskp hsknp <;> cases h
  · exact selector_format ⟨hop, hskp⟩
  · exact selector_format ⟨hop, hsknp⟩

theorem encode_of_decodeClassF (hop : w.op = 0xF#4) (h : decodeClassF w = .instr i) : encode i = w := by
  unfold decodeClassF at h
  split at h <;> cases h
  all_goals exact selector_format ⟨hop, BitVec.eq_of_toNat_eq ‹_›⟩

end Classes

/-- Settles O2, class by class: the clause that answered fixes the class digit and the selector, its operands the rest.
(`split` names the clause of class digit k `h_` k + 1.) -/
theorem encodeOfDecodeIsTheWord : Obligations.EncodeOfDecodeIsTheWord := by
  intro w i h
  unfold decode decodeWith at h
  split at h
  case h_1 => exact encode_of_decodeClass0 h
  case h_9 hop => exact encode_of_decodeClass8 (BitVec.eq_of_toNat_eq hop) h
  case h_15 hop => exact encode_of_decodeClassE (BitVec.eq_of_toNat_eq hop) h
  case h_16 hop => exact encode_of_decodeClassF (BitVec.eq_of_toNat_eq hop) h
  case h_6 hop | h_10 hop =>
    split_ifs at h with hn
    cases h
    exact nibble_format ⟨BitVec.eq_of_toNat_eq hop, hn.resolve_right (by decide)⟩
  case h_2 hop | h_3 hop | h_11 hop | h_12 hop =>
    cases h
    exact address_format (BitVec.eq_of_toNat_eq hop)
  case h_4 hop | h_5 hop | h_7 hop | h_8 hop | h_13 hop =>
    cases h
    exact byte_format (BitVec.eq_of_toNat_eq hop)
  case h_14 hop =>
    cases h
    exact nibble_format ⟨BitVec.eq_of_toNat_eq hop, rfl⟩
  case h_17 => cases h

/-! ## The words that are no instruction (R53) -/

/-- The decoder rejects a word only by its own name: it is total on words. -/
theorem eq_unrecognized_of_decodeWith_eq_reject {strict : Bool} {w : Word} {r : Reject}
    (h : decodeWith strict w = .reject r) : r = .unrecognized w := by
  unfold decodeWith decodeClass0 decodeClass8 decodeClassE decodeClassF at h
  repeat' split at h
  all_goals cases h
  all_goals rfl

theorem decodeClass0_eq_reject_iff (w : Word) :
    decodeClass0 w = .reject (.unrecognized w) ↔ w ≠ 0x00E0#16 ∧ w ≠ 0x00EE#16 := by
  unfold decodeClass0
  split_ifs with hcls hret <;> simp [*]

theorem decodeClass8_eq_reject_iff (w : Word) :
    decodeClass8 w = .reject (.unrecognized w) ↔
      w.n ∈ [0x8#4, 0x9#4, 0xA#4, 0xB#4, 0xC#4, 0xD#4, 0xF#4] := by
  simp only [List.mem_cons, List.not_mem_nil, or_false, ← BitVec.toNat_inj, BitVec.reduceToNat]
  unfold decodeClass8
  split
  case h_10 =>
    have hlt := w.n.isLt
    simp only [true_iff, imp_false] at *
    omega
  all_goals simp [*]

theorem decodeClassE_eq_reject_iff (w : Word) :
    decodeClassE w = .reject (.unrecognized w) ↔ w.nn ≠ 0x9E#8 ∧ w.nn ≠ 0xA1#8 := by
  unfold decodeClassE
  split_ifs with hskp hsknp <;> simp [*]

theorem decodeClassF_eq_reject_iff (w : Word) :
    decodeClassF w = .reject (.unrecognized w) ↔
      w.nn ∉ [0x07#8, 0x0A#8, 0x15#8, 0x18#8, 0x1E#8, 0x29#8, 0x33#8, 0x55#8, 0x65#8] := by
  simp only [List.mem_cons, List.not_mem_nil, or_false, ← BitVec.toNat_inj, BitVec.reduceToNat]
  unfold decodeClassF
  split
  case h_10 =>
    simp only [true_iff, imp_false] at *
    omega
  all_goals simp [*]

/-- Settles O4, class by class: each class with a selector rejects what the list says, every other class nothing. -/
theorem unrecognizedWordsAreThoseTheSpecLists : Obligations.UnrecognizedWordsAreThoseTheSpecLists := by
  intro strict w
  constructor
  · simp only [← BitVec.toNat_inj (x := w.op), BitVec.reduceToNat]
    unfold decodeWith
    split
    case h_1 hop => simp [hop, decodeClass0_eq_reject_iff]
    case h_9 hop => simp [hop, decodeClass8_eq_reject_iff]
    case h_15 hop => simp [hop, decodeClassE_eq_reject_iff]
    case h_16 hop => simp [hop, decodeClassF_eq_reject_iff]
    case h_6 hop | h_10 hop => simp [hop]
    case h_17 =>
      have hlt := w.op.isLt
      simp only [imp_false] at *
      omega
    all_goals simp [*]
  · intro hno
    cases h : decodeWith strict w with
    | instr i => exact ⟨i, rfl⟩
    | reject r => exact absurd (eq_unrecognized_of_decodeWith_eq_reject h ▸ h) hno

/-! ## The opcode table (R51)

A mask keeps whole nibbles, so a row covers the words whose class digit and selector are the pattern's. `hp` says that the
pattern is a word of its own row: no bit of it is outside the mask. -/

theorem nn_eq_iff {w p : Word} : w.nn = p.nn ↔ w.y = p.y ∧ w.n = p.n := by
  rw [w.nn_nibbles_eq, p.nn_nibbles_eq]
  simp only [← BitVec.toNat_inj, toNat_append_eq]
  omega

section Rows
variable {w p : Word} {m : String}

theorem covers_class_iff (hp : (TableRow.mk m p 0xF000#16).covers p = true) :
    (TableRow.mk m p 0xF000#16).covers w = true ↔ w.op = p.op := by
  obtain ⟨-, hx, hy, hn⟩ := (TableRow.covers_iff p m p _).mp hp
  have hop : w.op &&& Word.op 0xF000#16 = w.op := BitVec.and_allOnes
  rw [TableRow.covers_iff, ← hx, ← hy, ← hn, hop]
  simp [Word.x, Word.y, Word.n]

theorem covers_n_iff (hp : (TableRow.mk m p 0xF00F#16).covers p = true) :
    (TableRow.mk m p 0xF00F#16).covers w = true ↔ w.op = p.op ∧ w.n = p.n := by
  obtain ⟨-, hx, hy, -⟩ := (TableRow.covers_iff p m p _).mp hp
  have hop : w.op &&& Word.op 0xF00F#16 = w.op := BitVec.and_allOnes
  have hn : w.n &&& Word.n 0xF00F#16 = w.n := BitVec.and_allOnes
  rw [TableRow.covers_iff, ← hx, ← hy, hop, hn]
  simp [Word.x, Word.y]

theorem covers_nn_iff (hp : (TableRow.mk m p 0xF0FF#16).covers p = true) :
    (TableRow.mk m p 0xF0FF#16).covers w = true ↔ w.op = p.op ∧ w.nn = p.nn := by
  obtain ⟨-, hx, -, -⟩ := (TableRow.covers_iff p m p _).mp hp
  have hop : w.op &&& Word.op 0xF0FF#16 = w.op := BitVec.and_allOnes
  have hy : w.y &&& Word.y 0xF0FF#16 = w.y := BitVec.and_allOnes
  have hn : w.n &&& Word.n 0xF0FF#16 = w.n := BitVec.and_allOnes
  rw [TableRow.covers_iff, ← hx, hop, hy, hn, nn_eq_iff]
  simp [Word.x]

/-- A row with the full mask covers its pattern alone. -/
theorem covers_full_iff : (TableRow.mk m p 0xFFFF#16).covers w = true ↔ w = p := by
  have hw : w &&& 0xFFFF#16 = w := BitVec.and_allOnes
  rw [TableRow.covers, beq_iff_eq, hw]

end Rows

/-- What a row says of the words it covers: each is the word of an instruction with the row's mnemonic. -/
def RowHolds (row : TableRow) : Prop :=
  ∀ w, row.covers w = true → ∃ i, encode i = w ∧ i.mnemonic = row.mnemonic

theorem rowHolds_low : ∀ row ∈ opcodeTableLow, RowHolds row := by
  simp only [opcodeTableLow, List.forall_mem_cons]
  exact ⟨fun w h => ⟨.cls, (covers_full_iff.mp h).symm, rfl⟩,
    fun w h => ⟨.ret, (covers_full_iff.mp h).symm, rfl⟩,
    fun w h => ⟨.jp w.nnn, address_format ((covers_class_iff rfl).mp h), rfl⟩,
    fun w h => ⟨.call w.nnn, address_format ((covers_class_iff rfl).mp h), rfl⟩,
    fun w h => ⟨.seImm w.x w.nn, byte_format ((covers_class_iff rfl).mp h), rfl⟩,
    fun w h => ⟨.sneImm w.x w.nn, byte_format ((covers_class_iff rfl).mp h), rfl⟩,
    fun w h => ⟨.seReg w.x w.y, nibble_format ((covers_n_iff rfl).mp h), rfl⟩,
    fun w h => ⟨.ldImm w.x w.nn, byte_format ((covers_class_iff rfl).mp h), rfl⟩,
    fun w h => ⟨.addImm w.x w.nn, byte_format ((covers_class_iff rfl).mp h), rfl⟩,
    List.forall_mem_nil _⟩

theorem rowHolds_alu : ∀ row ∈ opcodeTableAlu, RowHolds row := by
  simp only [opcodeTableAlu, List.forall_mem_cons]
  exact ⟨fun w h => ⟨.ldReg w.x w.y, nibble_format ((covers_n_iff rfl).mp h), rfl⟩,
    fun w h => ⟨.orReg w.x w.y, nibble_format ((covers_n_iff rfl).mp h), rfl⟩,
    fun w h => ⟨.andReg w.x w.y, nibble_format ((covers_n_iff rfl).mp h), rfl⟩,
    fun w h => ⟨.xorReg w.x w.y, nibble_format ((covers_n_iff rfl).mp h), rfl⟩,
    fun w h => ⟨.addReg w.x w.y, nibble_format ((covers_n_iff rfl).mp h), rfl⟩,
    fun w h => ⟨.sub w.x w.y, nibble_format ((covers_n_iff rfl).mp h), rfl⟩,
    fun w h => ⟨.shr w.x w.y, nibble_format ((covers_n_iff rfl).mp h), rfl⟩,
    fun w h => ⟨.subn w.x w.y, nibble_format ((covers_n_iff rfl).mp h), rfl⟩,
    fun w h => ⟨.shl w.x w.y, nibble_format ((covers_n_iff rfl).mp h), rfl⟩,
    List.forall_mem_nil _⟩

theorem rowHolds_high : ∀ row ∈ opcodeTableHigh, RowHolds row := by
  simp only [opcodeTableHigh, List.forall_mem_cons]
  exact ⟨fun w h => ⟨.sneReg w.x w.y, nibble_format ((covers_n_iff rfl).mp h), rfl⟩,
    fun w h => ⟨.ldI w.nnn, address_format ((covers_class_iff rfl).mp h), rfl⟩,
    fun w h => ⟨.jpOff w.nnn, address_format ((covers_class_iff rfl).mp h), rfl⟩,
    fun w h => ⟨.rnd w.x w.nn, byte_format ((covers_class_iff rfl).mp h), rfl⟩,
    fun w h => ⟨.drw w.x w.y w.n, nibble_format ⟨(covers_class_iff rfl).mp h, rfl⟩, rfl⟩,
    fun w h => ⟨.skp w.x, selector_format ((covers_nn_iff rfl).mp h), rfl⟩,
    fun w h => ⟨.sknp w.x, selector_format ((covers_nn_iff rfl).mp h), rfl⟩,
    fun w h => ⟨.ldVxDt w.x, selector_format ((covers_nn_iff rfl).mp h), rfl⟩,
    fun w h => ⟨.ldK w.x, selector_format ((covers_nn_iff rfl).mp h), rfl⟩,
    fun w h => ⟨.ldDt w.x, selector_format ((covers_nn_iff rfl).mp h), rfl⟩,
    fun w h => ⟨.ldSt w.x, selector_format ((covers_nn_iff rfl).mp h), rfl⟩,
    fun w h => ⟨.addI w.x, selector_format ((covers_nn_iff rfl).mp h), rfl⟩,
    fun w h => ⟨.ldF w.x, selector_format ((covers_nn_iff rfl).mp h), rfl⟩,
    fun w h => ⟨.ldB w.x, selector_format ((covers_nn_iff rfl).mp h), rfl⟩,
    fun w h => ⟨.ldMemStore w.x, selector_format ((covers_nn_iff rfl).mp h), rfl⟩,
    fun w h => ⟨.ldMemLoad w.x, selector_format ((covers_nn_iff rfl).mp h), rfl⟩,
    List.forall_mem_nil _⟩

theorem rowHolds_of_mem {row : TableRow} (hrow : row ∈ opcodeTable) : RowHolds row := by
  rcases List.mem_append.mp hrow with hrow | hhigh
  · rcases List.mem_append.mp hrow with hlow | halu
    · exact rowHolds_low row hlow
    · exact rowHolds_alu row halu
  · exact rowHolds_high row hhigh

/-- The table lists the instructions in the order of the constructors, and each row covers the words of its instruction. -/
theorem exists_row_covers_encode (i : Instr) :
    ∃ row : TableRow, opcodeTable[i.ctorIdx]? = some row ∧ row.covers (encode i) = true := by
  cases i
  case cls | ret => exact ⟨_, rfl, rfl⟩
  case jp | call | ldI | jpOff => exact ⟨_, rfl, (covers_class_iff rfl).mpr (Word.op_address ..)⟩
  case seImm | sneImm | ldImm | addImm | rnd => exact ⟨_, rfl, (covers_class_iff rfl).mpr (Word.op_byte ..)⟩
  case drw => exact ⟨_, rfl, (covers_class_iff rfl).mpr (Word.op_nibbles ..)⟩
  case seReg | ldReg | orReg | andReg | xorReg | addReg | sub | shr | subn | shl | sneReg =>
    exact ⟨_, rfl, (covers_n_iff rfl).mpr ⟨Word.op_nibbles .., Word.n_nibbles ..⟩⟩
  case skp | sknp | ldVxDt | ldK | ldDt | ldSt | addI | ldF | ldB | ldMemStore | ldMemLoad =>
    exact ⟨_, rfl, (covers_nn_iff rfl).mpr ⟨Word.op_byte .., Word.nn_byte ..⟩⟩

/-- A covered word decodes, to an instruction with the row's mnemonic: it is that instruction's word. -/
theorem decode_of_covers {row : TableRow} {w : Word} (hrow : row ∈ opcodeTable) (hcov : row.covers w = true) :
    ∃ i, decode w = .instr i ∧ i.mnemonic = row.mnemonic := by
  obtain ⟨i, rfl, hname⟩ := rowHolds_of_mem hrow w hcov
  exact ⟨i, decodeWith_encode strictSkipReg i, hname⟩

/-- Settles O3: a covered word decodes, and a word that decodes is its instruction's word (O2), which a row covers. -/
theorem decoderAgreesWithTheOpcodeTable : Obligations.DecoderAgreesWithTheOpcodeTable := by
  intro w
  refine ⟨⟨fun hrej row hrow => eq_false_of_ne_true fun hcov => ?_, fun hno => ?_⟩, fun row => decode_of_covers⟩
  · obtain ⟨i, hi, -⟩ := decode_of_covers hrow hcov
    cases hi.symm.trans hrej
  · cases h : decode w with
    | instr i =>
      obtain ⟨row, hrow, hcov⟩ := exists_row_covers_encode i
      rw [encodeOfDecodeIsTheWord w i h, hno row (List.mem_of_getElem? hrow)] at hcov
      cases hcov
    | reject r => rw [eq_unrecognized_of_decodeWith_eq_reject h]

/-- Settles O5: each word evaluates to its instruction. -/
theorem writtenOutWordsDecode : Obligations.WrittenOutWordsDecode := by
  unfold Obligations.WrittenOutWordsDecode
  decide

end Sys2Proof.Machine
end

section
/-! SUPPORT. The step (spec/40_step.md): what surrounds the instruction, the word passed over, the fetch outside memory, and
that no instruction but RND, LD_K, SKP and SKNP reads the latched inputs. -/

namespace Sys2Proof.Machine

/-! ## Around the instruction (R55, R57, R112) -/

/-- A timer update at one of its two places counts when the gate is open and the configuration puts it there. -/
theorem countDown_and_decide_toNat (gate : Bool) (here : Prop) [Decidable here] (u : Byte) :
    (countDown (gate && decide here) u).toNat = if gate = true ∧ here then u.toNat - 1 else u.toNat := by
  simp only [countDown_toNat, Bool.and_eq_true, decide_eq_true_eq]

/-- The step at an instruction's word runs the instruction, then `State.endStep`. -/
theorem step_of_instr {s : State} {i : Instr} (hn : s.fault = none) (hfetch : Fetchable s) (hd : s.decoded = .instr i) :
    step s = onNext State.endStep (exec i s.atExecute) := by
  rw [step_of_fetchable hn hfetch, executeWord_decoded hd]

/-- Settles O6: the fetch finds the word, and the timers are counted at the place the configuration gives. -/
theorem stepRunsTheDecodedInstruction : Obligations.StepRunsTheDecodedInstruction := by
  intro s i hn hfetch hd
  refine ⟨?_, rfl, rfl, countDown_and_decide_toNat .., countDown_and_decide_toNat .., changesOnly_atExecute s, fun t =>
    ⟨countDown_and_decide_toNat .., countDown_and_decide_toNat .., changesOnly_endStep t⟩⟩
  rw [step_of_instr hn hfetch hd]
  cases exec i s.atExecute <;> rfl

/-! ## The word passed over (R58) -/

/-- The step at a word that is no instruction reports it and goes on. -/
theorem step_of_reject {s : State} {r : Reject} (hn : s.fault = none) (hfetch : Fetchable s) (hd : s.decoded = .reject r) :
    step s = .next (s.atExecute.report s.wordAtPc).endStep := by
  rw [step_of_fetchable hn hfetch, executeWord_reject (s := s.atExecute) hd, onNext]

/-- Settles O8: the word is reported in the state past the fetch, and only the step's surroundings add to that. -/
theorem unrecognizedWordIsReportedAndPassedOver : Obligations.UnrecognizedWordIsReportedAndPassedOver := by
  constructor
  · intro s w hw
    exact ⟨s.report w, executeWord_reject hw, rfl, changesOnly_report s w⟩
  · intro s hn hfetch hd
    have hstep := step_of_reject hn hfetch hd
    refine ⟨_, hstep, rfl, rfl, (step_changesOnly_of_reject hstep hd).mono ?_⟩
    exact (List.Perm.swap ..).subset

/-! ## The fetch outside memory (R36, R56) -/

/-- Settles O9: of PC and PC + 1 the first that does not exist is the larger of PC and 0x1000. -/
theorem fetchOutsideMemoryFaults : Obligations.FetchOutsideMemoryFaults := by
  intro s hn
  have hfault (h : 0xFFF ≤ s.pc.toNat) : step s = .fault (.memoryOutOfRange (max s.pc.toNat 0x1000)) :=
    step_of_not_fetchable hn fun hfetch => by
      have hpc : s.pc.toNat + 1 < 0x1000 := hfetch
      omega
  constructor
  · intro hpc
    rw [hfault (by omega), hpc]
    rfl
  · intro hpc
    rw [hfault (by omega), Nat.max_eq_left (by omega)]

/-! ## The latched inputs (R57) -/

/-- The state with other inputs latched. -/
def State.withLatch (s : State) (l : StepInput) : State := { s with latch := l }

section WithLatch
variable (s : State) (l : StepInput)

theorem State.storeBytes_withLatch (a : Nat) {us : List Byte} (hne : us ≠ []) :
    (s.withLatch l).storeBytes a us = (s.storeBytes a us).map (·.withLatch l) := by
  rcases s.storeBytes_cases a us hne with ⟨hfits, e⟩ | ⟨hout, e⟩
  · rw [e, State.storeBytes_ok _ a us hfits]
    rfl
  · rw [e, State.storeBytes_error _ a us hne hout]
    rfl

theorem State.loadRegs_withLatch (ks : List RegIdx) :
    (s.withLatch l).loadRegs ks = (s.loadRegs ks).map (·.withLatch l) := by
  induction ks generalizing s with
  | nil => rfl
  | cons k ks ih =>
    have hread : (s.withLatch l).memRead ((s.withLatch l).i.toNat + k.toNat) = s.memRead (s.i.toNat + k.toNat) := rfl
    rw [State.loadRegs, State.loadRegs, hread]
    cases s.memRead (s.i.toNat + k.toNat) with
    | error f => rfl
    | ok u => exact ih (s.setReg k u)

variable {s l}

theorem State.keyIs_withLatch (hkey : l.key = s.latch.key) (x : RegIdx) : (s.withLatch l).keyIs x = s.keyIs x := by
  simp only [State.keyIs, ← hkey]
  rfl

/-- An instruction does the same whatever inputs are latched, if the latched values it reads are the same. -/
theorem exec_withLatch {i : Instr} (hrnd : (∀ x nn, i ≠ .rnd x nn) ∨ l.rnd = s.latch.rnd)
    (hkey : (∀ x, i ≠ .ldK x ∧ i ≠ .skp x ∧ i ≠ .sknp x) ∨ l.key = s.latch.key) :
    exec i (s.withLatch l) = onNext (·.withLatch l) (exec i s) := by
  cases i with
  | rnd x nn =>
    have e := hrnd.resolve_left fun h => h x nn rfl
    exact congrArg (fun u => Host.Outcome.next ((s.setReg x (u &&& nn)).withLatch l)) e
  | ldK x =>
    have e := hkey.resolve_left fun h => (h x).1 rfl
    cases hk : s.latch.key with
    | some k =>
      rw [exec_ldK_of_key x hk]
      exact exec_ldK_of_key (s := s.withLatch l) x (e.trans hk)
    | none =>
      rw [exec_ldK_of_none x hk]
      exact exec_ldK_of_none (s := s.withLatch l) x (e.trans hk)
  | skp x =>
    have e := hkey.resolve_left fun h => (h x).2.1 rfl
    exact congrArg (fun c => Host.Outcome.next ((s.skipIf c).withLatch l)) (State.keyIs_withLatch e x)
  | sknp x =>
    have e := hkey.resolve_left fun h => (h x).2.2 rfl
    exact congrArg (fun c => Host.Outcome.next ((s.skipIf (!c)).withLatch l)) (State.keyIs_withLatch e x)
  | ret =>
    rcases List.eq_nil_or_concat' s.stack with hs | ⟨ws, w, hs⟩
    · rw [exec_ret_of_empty hs]
      exact exec_ret_of_empty (s := s.withLatch l) hs
    · rw [exec_ret_of_concat hs]
      exact exec_ret_of_concat (s := s.withLatch l) hs
  | call a =>
    rcases Nat.lt_or_ge s.stack.length s.config.stackDepth with hroom | hfull
    · rw [exec_call_of_room a hroom]
      exact exec_call_of_room (s := s.withLatch l) a hroom
    · rw [exec_call_of_full a hfull]
      exact exec_call_of_full (s := s.withLatch l) a hfull
  | addI x =>
    rcases Nat.lt_or_ge 0xFFFF (s.i.toNat + (s.reg x).toNat) with hov | hfits
    · rw [exec_addI_of_overflow hov]
      exact exec_addI_of_overflow (s := s.withLatch l) hov
    · rw [exec_addI_of_fits hfits]
      exact exec_addI_of_fits (s := s.withLatch l) hfits
  | drw x y n =>
    by_cases hrange : s.i.toNat + n.toNat ≤ Config.memSize ∨ n.toNat = 0
    · rw [exec_drw_of_range s x y n hrange]
      exact exec_drw_of_range (s.withLatch l) x y n hrange
    · have hout : Config.memSize < s.i.toNat + n.toNat := by omega
      rw [exec_drw_out_of_range s x y n hout (by omega)]
      exact exec_drw_out_of_range (s.withLatch l) x y n hout (by omega)
  | ldB x => exact (congrArg orRaise (s.storeBytes_withLatch l _ (by simp [bcdDigits]))).trans (orRaise_map _ _)
  | ldMemStore x =>
    exact (congrArg orRaise (s.storeBytes_withLatch l _ (by simp [regsUpTo_ne_nil]))).trans (orRaise_map _ _)
  | ldMemLoad x => exact (congrArg orRaise (s.loadRegs_withLatch l _)).trans (orRaise_map _ _)
  | _ => rfl

end WithLatch

/-- The same for a change to the latch as it then is: the instruction leaves it alone. -/
theorem exec_mapLatch {i : Instr} {s : State} (f : StepInput → StepInput)
    (hrnd : (∀ x nn, i ≠ .rnd x nn) ∨ (f s.latch).rnd = s.latch.rnd)
    (hkey : (∀ x, i ≠ .ldK x ∧ i ≠ .skp x ∧ i ≠ .sknp x) ∨ (f s.latch).key = s.latch.key) :
    exec i (s.withLatch (f s.latch)) = onNext (fun t => t.withLatch (f t.latch)) (exec i s) := by
  rw [exec_withLatch hrnd hkey]
  cases h : exec i s with
  | next t =>
    have hlatch : t.latch = s.latch := exec_keeps_inputs (p := .latch) (by decide) h
    simp only [onNext, hlatch]
  | _ => rfl

/-- Settles O25: each clause changes one latched input, which leaves the two others as they were. -/
theorem inputsAreReadOnlyByTheirInstructions : Obligations.InputsAreReadOnlyByTheirInstructions := by
  intro i s
  refine ⟨fun u hrnd => ?_, fun k hldK hskp hsknp => ?_, fun g => ?_⟩
  · exact exec_mapLatch (fun l => { l with rnd := u }) (.inl hrnd) (.inr rfl)
  · exact exec_mapLatch (fun l => { l with key := k }) (.inr rfl) (.inl fun x => ⟨hldK x, hskp x, hsknp x⟩)
  · exact exec_mapLatch (fun l => { l with tick := g }) (.inr rfl) (.inr rfl)

end Sys2Proof.Machine
end

section
/-! SUPPORT. Control transfer (spec/41_control_flow.md): where the two jumps, CALL, RET and a skip leave PC. The six skips
are one argument: each is `State.skipIf` of a test that decides its condition. -/

namespace Sys2Proof.Machine

/-! ## Jumps (R61, R63, R66) -/

/-- A 4-bit field read at bit 8 of an address is its high nibble (R66). -/
theorem extractLsb'_high_nibble (nnn : Addr12) : nnn.extractLsb' 8 4 = BitVec.ofNat 4 (nnn.toNat / 256) := by
  apply BitVec.eq_of_toNat_eq
  rw [BitVec.extractLsb'_toNat, BitVec.toNat_ofNat, Nat.shiftRight_eq_div_pow]

theorem State.offsetReg_of_v0 {s : State} (nnn : Addr12) (h : s.config.jumpOffsetVX = false) :
    s.offsetReg nnn = 0x0#4 := by
  simp [State.offsetReg, h]

theorem State.offsetReg_of_vx {s : State} (nnn : Addr12) (h : s.config.jumpOffsetVX = true) :
    s.offsetReg nnn = BitVec.ofNat 4 (nnn.toNat / 256) := by
  simp only [State.offsetReg, h, if_true, extractLsb'_high_nibble]

/-- Settles O28: the target is the exact sum, with the register that the compatibility flag selects. -/
theorem jumpWithOffsetAddsItsRegister : Obligations.JumpWithOffsetAddsItsRegister := by
  intro s nnn
  have htarget := s.offsetTarget_toNat nnn
  refine ⟨decodeWith_encode _ (.jpOff nnn), s.setPc (s.offsetTarget nnn), rfl, fun hv0 => ?_, fun hvx => ?_,
    changesOnly_setPc s _⟩
  · rwa [State.offsetReg_of_v0 nnn hv0] at htarget
  · rwa [State.offsetReg_of_vx nnn hvx] at htarget

/-- Settles O27: the word is the instruction's own, and the target is zero-extended. -/
theorem jumpSetsPc : Obligations.JumpSetsPc := fun s nnn =>
  ⟨decodeWith_encode _ (.jp nnn), s.setPc (addr16 nnn), rfl, addr16_toNat nnn, changesOnly_setPc s _⟩

/-! ## The call stack (R64, R65) -/

/-- Settles O29, by whether the stack has room. -/
theorem callPushesTheReturnAddressAndJumps : Obligations.CallPushesTheReturnAddressAndJumps := by
  intro s nnn
  refine ⟨decodeWith_encode _ (.call nnn), fun hroom => ?_, exec_call_of_full nnn⟩
  have hcall := exec_call_of_room nnn hroom
  exact ⟨_, hcall, rfl, addr16_toNat nnn, exec_changesOnly _ hcall⟩

/-- Settles O30, by whether the stack has an entry. -/
theorem returnPopsIntoPc : Obligations.ReturnPopsIntoPc := by
  refine ⟨decodeWith_encode _ .ret, fun s ws w hs => ?_, fun _ => exec_ret_of_empty⟩
  have hret := exec_ret_of_concat hs
  exact ⟨_, hret, rfl, rfl, exec_changesOnly _ hret⟩

/-! ## Skips (R62, R67 to R70, R99, R100) -/

/-- The key test is true exactly when a key is latched and V[x], as a whole byte, is its code (R97). -/
theorem State.keyIs_iff (s : State) (x : RegIdx) :
    s.keyIs x = true ↔ ∃ k, s.latch.key = some k ∧ k.toNat = (s.reg x).toNat := by
  cases hkey : s.latch.key with
  | some k => simp [State.keyIs_some hkey]
  | none => simp [State.keyIs_none hkey]

/-- A skip instruction completes, as `State.skipIf` of a test that decides its condition. -/
theorem exec_eq_skipIf {i : Instr} {s : State} {c : Prop} (h : Instr.skipCondition i s = some c) :
    ∃ test : Bool, exec i s = .next (s.skipIf test) ∧ (test = true ↔ c) := by
  cases i with
  | seImm x nn => cases h; exact ⟨_, rfl, beq_iff_eq⟩
  | sneImm x nn => cases h; exact ⟨_, rfl, bne_iff_ne⟩
  | seReg x y => cases h; exact ⟨_, rfl, beq_iff_eq⟩
  | sneReg x y => cases h; exact ⟨_, rfl, bne_iff_ne⟩
  | skp x => cases h; exact ⟨_, rfl, s.keyIs_iff x⟩
  | sknp x => cases h; exact ⟨_, rfl, by rw [Bool.not_eq_true', ← Bool.not_eq_true, s.keyIs_iff x]⟩
  | _ => cases h

/-- A skip adds 2 to PC exactly when its condition holds, and changes nothing else (R62). -/
theorem exec_skip {i : Instr} {s : State} {c : Prop} (h : Instr.skipCondition i s = some c) :
    ∃ t, exec i s = .next t ∧ (c → t.pc = s.pc + 2#16) ∧ (¬ c → t.pc = s.pc) ∧ ChangesOnly s t [.pc] := by
  obtain ⟨test, hexec, htest⟩ := exec_eq_skipIf h
  refine ⟨_, hexec, fun hc => ?_, fun hc => ?_, changesOnly_skipIf s test⟩
  · rw [State.skipIf_pc, if_pos (htest.mpr hc)]
  · rw [State.skipIf_pc, if_neg (mt htest.mp hc)]

/-- The same of a skip whose condition is a negation, as SNE's: it stays exactly when what it denies holds. -/
theorem exec_skip_of_not {i : Instr} {s : State} {c : Prop} (h : Instr.skipCondition i s = some (¬ c)) :
    ∃ t, exec i s = .next t ∧ (¬ c → t.pc = s.pc + 2#16) ∧ (c → t.pc = s.pc) ∧ ChangesOnly s t [.pc] := by
  obtain ⟨t, hexec, htaken, hstays, hframe⟩ := exec_skip h
  exact ⟨t, hexec, htaken, fun hc => hstays (not_not_intro hc), hframe⟩

/-- Settles O33: the skip's own 2 comes on top of the fetch's, and only the step's surroundings add to its frame. -/
theorem skipMovesTwoWordsOn : Obligations.SkipMovesTwoWordsOn := by
  intro s i c hn hfetch hd hcond
  obtain ⟨u, hexec, htaken, hstays, hframe⟩ := exec_skip hcond
  have hstep : step s = .next u.endStep := by rw [step_of_instr hn hfetch hd, hexec, onNext]
  refine ⟨_, hstep, fun hc => ?_, hstays, ?_⟩
  · have hpc : u.pc = s.pc + 2#16 + 2#16 := htaken hc
    rw [State.endStep_pc, hpc, BitVec.add_assoc]
    rfl
  · refine (((changesOnly_atExecute s).trans hframe).trans (changesOnly_endStep u)).mono ?_
    simp [aroundParts]

/-- Settles O31: each word is its instruction's own, and each instruction a skip on its condition. -/
theorem skipsOnAnImmediate : Obligations.SkipsOnAnImmediate := fun _ x nn =>
  ⟨decodeWith_encode _ (.seImm x nn), decodeWith_encode _ (.sneImm x nn), exec_skip (i := .seImm x nn) rfl,
    exec_skip_of_not (i := .sneImm x nn) rfl⟩

/-- Settles O32: the class digit selects the skip, and n is looked at only under the strict rule (R52). -/
theorem skipsOnARegister : Obligations.SkipsOnARegister := by
  intro s x y n strict
  refine ⟨?_, ?_, exec_skip (i := .seReg x y) rfl, exec_skip_of_not (i := .sneReg x y) rfl⟩
  · simp [decodeWith]
  · simp [decodeWith]

end Sys2Proof.Machine
end

section
/-! SUPPORT. Register and index-register instructions (spec/42_register_immediate.md): the three that write one register,
and the three that write I. -/

namespace Sys2Proof.Machine

/-! ## The index register (R73, R75, R76) -/

/-- Settles O37, by whether the sum fits 16 bits; the flag speaks of the new I, which is then that sum. -/
theorem addToIndexFlagsTheTwelveBitRange : Obligations.AddToIndexFlagsTheTwelveBitRange := by
  intro s x
  refine ⟨decodeWith_encode _ (.addI x), fun hfits => ?_, exec_addI_of_overflow⟩
  have hexec := exec_addI_of_fits hfits
  obtain ⟨hsum, hflag⟩ := exec_addI_next hexec
  refine ⟨_, hexec, hsum, ?_, exec_changesOnly _ hexec⟩
  rw [hflag, hsum, indexFlag, flagByte_decide]

/-- A core's created memory holds row k of glyph g at the font base plus 5 * g plus k (R33, R34). -/
theorem created_byteAt_glyph (c : Configuration) {g k : Nat} (hg : g < 16) (hk : k < 5) :
    (State.created c).byteAt (c.font.base.toNat + 5 * g + k) = c.font.glyphs.getD (5 * g + k) 0#8 := by
  rw [State.created_byteAt, Nat.add_assoc, initialByte_of_mem (by omega)]

/-- Settles O38: the address is exact, and the low nibble names one of the 16 glyphs that stand there. -/
theorem fontAddressIsFiveBytesAGlyph : Obligations.FontAddressIsFiveBytesAGlyph := by
  intro s x
  have haddr := glyphAddr_toNat s.config.font (s.reg x)
  refine ⟨decodeWith_encode _ (.ldF x), s.setI (glyphAddr s.config.font (s.reg x)), rfl, haddr, changesOnly_setI s _,
    fun hreset => ?_, fun k hk => ?_⟩
  · have hbase : s.config.font.base.toNat = 0x050 := by rw [hreset]; rfl
    rw [State.setI_i, haddr, hbase]
  · rw [State.setI_i, haddr]
    exact created_byteAt_glyph s.config (Nat.mod_lt _ (by decide)) hk

/-- Settles O35: the word is the instruction's own, and the address is zero-extended. -/
theorem loadIndexSetsTheAddress : Obligations.LoadIndexSetsTheAddress := fun s nnn =>
  ⟨decodeWith_encode _ (.ldI nnn), s.setI (addr16 nnn), rfl, addr16_toNat nnn, changesOnly_setI s _⟩

/-! ## One general register (R71, R72, R74) -/

/-- Settles O34: each instruction is one write to V[x], and a byte sum wraps at 256. -/
theorem immediateLoadAndAdd : Obligations.ImmediateLoadAndAdd := by
  intro s x nn
  refine ⟨decodeWith_encode _ (.ldImm x nn), decodeWith_encode _ (.addImm x nn),
    ⟨s.setReg x nn, rfl, State.setReg_reg_self s x nn, changesOnly_setReg s x nn⟩,
    ⟨s.setReg x (s.reg x + nn), rfl, ?_, changesOnly_setReg s x _⟩⟩
  rw [State.setReg_reg_self, BitVec.toNat_add]

/-- Settles O36: the word is the instruction's own, and its one write is the masked random byte to V[x]. -/
theorem randomByteIsMasked : Obligations.RandomByteIsMasked := fun s x nn =>
  ⟨decodeWith_encode _ (.rnd x nn), s.setReg x (s.latch.rnd &&& nn), rfl, State.setReg_reg_self s x _,
    changesOnly_setReg s x _⟩

end Sys2Proof.Machine
end

section
/-! SUPPORT. The ALU group (spec/43_alu.md): the four instructions that write one register, and the five that write a
result and then the flag. -/

namespace Sys2Proof.Machine

/-! ## Results and bits as numbers (R77, R78) -/

/-- The result is still in V[x] after the flag is written, unless V[x] is VF itself (R18). -/
theorem State.setRegFlag_reg_dest (s : State) {x : RegIdx} (result flag : Byte) (h : x ≠ vf) :
    (s.setRegFlag x result flag).reg x = result := by
  rw [State.setRegFlag_reg, if_neg h, if_pos rfl]

theorem sub_toNat (a b : Byte) : (a - b).toNat = (a.toNat + 256 - b.toNat) % 256 := by
  have := b.isLt
  rw [BitVec.toNat_sub]
  omega

theorem shiftRight_one_toNat (a : Byte) : (a >>> 1).toNat = a.toNat / 2 := by
  rw [BitVec.toNat_ushiftRight, Nat.shiftRight_eq_div_pow, pow_one]

theorem shiftLeft_one_toNat (a : Byte) : (a <<< 1).toNat = 2 * a.toNat % 256 := by
  rw [BitVec.toNat_shiftLeft, Nat.shiftLeft_eq, pow_one, Nat.mul_comm]

theorem lowBitFlag_toNat (a : Byte) : (lowBitFlag a).toNat = a.toNat % 2 := by
  rw [lowBitFlag_eq, BitVec.toNat_ofNat]
  omega

theorem highBitFlag_toNat (a : Byte) : (highBitFlag a).toNat = a.toNat / 128 := by
  have := a.isLt
  rw [highBitFlag_eq, BitVec.toNat_ofNat]
  omega

/-! ## An instruction that writes a result and then a flag (R77) -/

/-- What such an instruction leaves, with the result as the number `n` it stands for. -/
theorem exec_setRegFlag {i : Instr} {s : State} {x : RegIdx} {result flag : Byte} {n : Nat}
    (h : exec i s = .next (s.setRegFlag x result flag)) (hresult : result.toNat = n) :
    ∃ t, exec i s = .next t ∧ (x ≠ vf → (t.reg x).toNat = n) ∧ t.reg vf = flag ∧
      ChangesOnly s t [.reg x, .reg vf] :=
  ⟨_, h, fun hx => by rw [State.setRegFlag_reg_dest s result flag hx, hresult], State.setRegFlag_reg_vf ..,
    changesOnly_setRegFlag s x result flag⟩

/-! ## Sum and differences (R84, R85, R87) -/

/-- Settles O40: a byte sum wraps at 256, and the flag says whether it did. -/
theorem addSetsTheCarry : Obligations.AddSetsTheCarry := by
  intro s x y
  rw [← flagByte_decide]
  exact ⟨decodeWith_encode _ (.addReg x y), exec_setRegFlag rfl (BitVec.toNat_add ..)⟩

/-- Settles O41: SUBN is SUB with its operands exchanged, in the difference and in the flag alike. -/
theorem subtractionsSetNoBorrow : Obligations.SubtractionsSetNoBorrow := by
  intro s x y
  rw [← flagByte_decide, ← flagByte_decide]
  exact ⟨decodeWith_encode _ (.sub x y), decodeWith_encode _ (.subn x y), exec_setRegFlag rfl (sub_toNat ..),
    exec_setRegFlag rfl (sub_toNat ..)⟩

/-! ## Shifts (R78, R86, R88) -/

/-- Settles O42: whichever register the configuration shifts, half or double of it goes to V[x] and the bit to VF. -/
theorem shiftsMoveOneBitIntoTheFlag : Obligations.ShiftsMoveOneBitIntoTheFlag := by
  rintro s x y _ rfl
  obtain ⟨r, hr, hhalf, hlow, hrframe⟩ := exec_setRegFlag (i := .shr x y) (s := s) rfl (shiftRight_one_toNat _)
  obtain ⟨l, hl, hdouble, hhigh, hlframe⟩ := exec_setRegFlag (i := .shl x y) (s := s) rfl (shiftLeft_one_toNat _)
  exact ⟨decodeWith_encode _ (.shr x y), decodeWith_encode _ (.shl x y),
    ⟨r, hr, hhalf, (congrArg BitVec.toNat hlow).trans (lowBitFlag_toNat _), hrframe⟩,
    ⟨l, hl, hdouble, (congrArg BitVec.toNat hhigh).trans (highBitFlag_toNat _), hlframe⟩⟩

/-! ## Move and bitwise operations (R80 to R83) -/

/-- Settles O39: each instruction is one write to V[x], and a bitwise operation is one on each bit. -/
theorem moveAndBitwiseWriteOnlyTheirRegister : Obligations.MoveAndBitwiseWriteOnlyTheirRegister := by
  intro s x y
  refine ⟨decodeWith_encode _ (.ldReg x y), decodeWith_encode _ (.orReg x y), decodeWith_encode _ (.andReg x y),
    decodeWith_encode _ (.xorReg x y), ⟨_, rfl, State.setReg_reg_self .., changesOnly_setReg s x _⟩,
    ⟨_, rfl, changesOnly_setReg s x _, fun b => ?_⟩, ⟨_, rfl, changesOnly_setReg s x _, fun b => ?_⟩,
    ⟨_, rfl, changesOnly_setReg s x _, fun b => ?_⟩⟩
  · rw [State.setReg_reg_self, BitVec.getLsbD_or]
  · rw [State.setReg_reg_self, BitVec.getLsbD_and]
  · rw [State.setReg_reg_self, BitVec.getLsbD_xor]

end Sys2Proof.Machine
end

section
/-! SUPPORT. Memory transfer (spec/44_memory_transfer.md): the two stores are one block store at I, the load a block of
registers; each fits below 0x1000 or faults with the first address that does not exist (R89). -/

namespace Sys2Proof.Machine

/-! ## A block of bytes stored at I (R89) -/

section BlockStore
variable {i : Instr} {s : State} {us : List Byte}

/-- An instruction that stores a block that fits completes: the bytes read back in a canonical memory, and no other part
changes. -/
theorem exec_store_of_fits (h : exec i s = orRaise (s.storeBytes s.i.toNat us))
    (hfits : s.i.toNat + us.length ≤ Config.memSize) :
    ∃ t, exec i s = .next t ∧
      (s.memWf = true → ∀ k < us.length, t.byteAt (s.i.toNat + k) = us.getD k 0#8) ∧
      ChangesOnly s t (bytesFrom s.i.toNat us.length) := by
  have hok := s.storeBytes_ok s.i.toNat us hfits
  refine ⟨_, by rw [h, hok, orRaise], fun hm k hk => ?_, changesOnly_storeBytes s hok⟩
  rw [State.byteAt_placeBytes hm _ us hfits, if_pos (by omega), Nat.add_sub_cancel_left]

/-- An instruction that stores a block that does not fit faults with the first address above 0xFFF (92 D20). -/
theorem exec_store_of_out_of_range (h : exec i s = orRaise (s.storeBytes s.i.toNat us)) (hne : us ≠ [])
    (hout : Config.memSize < s.i.toNat + us.length) :
    exec i s = .fault (.memoryOutOfRange (max s.i.toNat Config.memSize)) := by
  rw [h, s.storeBytes_error _ us hne hout, orRaise, raise]

end BlockStore

/-! ## Registers to memory (R90) -/

theorem exec_ldMemStore (s : State) (x : RegIdx) :
    exec (.ldMemStore x) s = orRaise (s.storeBytes s.i.toNat ((regsUpTo x).map s.reg)) := rfl

/-- Settles O43: the block is V[0] to V[x], its k-th byte V[k]. -/
theorem storeRegistersCopiesV0ToVX : Obligations.StoreRegistersCopiesV0ToVX := by
  intro s x
  have hlen : ((regsUpTo x).map s.reg).length = x.toNat + 1 := by rw [List.length_map, regsUpTo_length]
  refine ⟨decodeWith_encode _ (.ldMemStore x), fun hfits => ?_, fun hout => ?_⟩
  · obtain ⟨t, ht, hbytes, hframe⟩ := exec_store_of_fits (exec_ldMemStore s x) (hlen ▸ Nat.succ_le_succ hfits)
    rw [hlen] at hbytes hframe
    refine ⟨t, ht, fun hm k hk => ?_, hframe⟩
    rw [hbytes hm k.toNat (Nat.lt_succ_of_le hk), regsUpTo_getD x s.reg hk, BitVec.ofNat_toNat, BitVec.setWidth_eq]
  · exact exec_store_of_out_of_range (exec_ldMemStore s x) (by simp [regsUpTo_ne_nil])
      (hlen ▸ Nat.succ_lt_succ hout)

/-! ## Memory to registers (R91) -/

/-- LD_MEM_LOAD completes when its last address exists. -/
theorem exec_ldMemLoad_of_fits {s : State} {x : RegIdx} (h : s.i.toNat + x.toNat < Config.memSize) :
    ∃ t, exec (.ldMemLoad x) s = .next t ∧
      ∀ k : RegIdx, k.toNat ≤ x.toNat → t.reg k = s.byteAt (s.i.toNat + k.toNat) := by
  obtain ⟨v, hload, hreg⟩ := s.loadRegs_ok (regsUpTo x) fun k hk => by have := mem_regsUpTo.mp hk; omega
  refine ⟨{ s with v := v }, by rw [exec, execLdMemLoad, hload, orRaise], fun k hk => ?_⟩
  rw [hreg, if_pos (mem_regsUpTo.mpr hk)]

theorem exec_ldMemLoad_of_out_of_range {s : State} {x : RegIdx} (h : Config.memSize ≤ s.i.toNat + x.toNat) :
    exec (.ldMemLoad x) s = .fault (.memoryOutOfRange (max s.i.toNat Config.memSize)) := by
  rw [exec, execLdMemLoad, s.loadRegs_error x h, orRaise, raise]

/-- Settles O44, by whether the last address exists. -/
theorem loadRegistersCopiesMemoryToV0ToVX : Obligations.LoadRegistersCopiesMemoryToV0ToVX := by
  intro s x
  refine ⟨decodeWith_encode _ (.ldMemLoad x), fun hfits => ?_, fun hout => exec_ldMemLoad_of_out_of_range hout⟩
  obtain ⟨t, ht, hregs⟩ := exec_ldMemLoad_of_fits (Nat.lt_succ_of_le hfits)
  exact ⟨t, ht, hregs, exec_changesOnly _ ht⟩

/-! ## Decimal digits to memory (R92) -/

theorem exec_ldB (s : State) (x : RegIdx) :
    exec (.ldB x) s = orRaise (s.storeBytes s.i.toNat (bcdDigits (s.reg x))) := rfl

@[simp] theorem bcdDigits_length (u : Byte) : (bcdDigits u).length = 3 := rfl

/-- Each digit fits a byte, so that the bytes are the digits themselves. -/
theorem bcdDigits_getD_toNat (u : Byte) :
    ((bcdDigits u).getD 0 0#8).toNat = u.toNat / 100 ∧ ((bcdDigits u).getD 1 0#8).toNat = u.toNat / 10 % 10 ∧
      ((bcdDigits u).getD 2 0#8).toNat = u.toNat % 10 := by
  have := u.isLt
  simp only [bcdDigits, List.getD_cons_zero, List.getD_cons_succ, BitVec.toNat_ofNat]
  omega

/-- Settles O45: the block is the three digits of a byte, whose hundreds are at most 2. -/
theorem storeBcdWritesThreeDigits : Obligations.StoreBcdWritesThreeDigits := by
  intro s x
  refine ⟨decodeWith_encode _ (.ldB x), fun hfits => ?_, fun hout => ?_⟩
  · obtain ⟨t, ht, hbytes, hframe⟩ := exec_store_of_fits (exec_ldB s x) (Nat.succ_le_succ hfits)
    refine ⟨t, ht, fun hm => ?_, hframe⟩
    obtain ⟨hhundreds, htens, hones⟩ := bcdDigits_getD_toNat (s.reg x)
    rw [← hbytes hm 0 (by simp)] at hhundreds
    rw [← hbytes hm 1 (by simp)] at htens
    rw [← hbytes hm 2 (by simp)] at hones
    have := (s.reg x).isLt
    exact ⟨_, _, _, by omega, by omega, by omega, by omega, hhundreds, htens, hones⟩
  · exact exec_store_of_out_of_range (exec_ldB s x) (List.cons_ne_nil _ _) (Nat.succ_lt_succ hout)

end Sys2Proof.Machine
end

section
/-! SUPPORT. Timer instructions (spec/45_timers.md): each is one write, and the step counts the timers either in the state
the instruction starts from, `State.atExecute`, or after its write, in `State.endStep`. -/

namespace Sys2Proof.Machine

/-! ## One write each (R94, R95, R96) -/

theorem exec_ldVxDt (s : State) (x : RegIdx) : exec (.ldVxDt x) s = .next (s.setReg x s.dt) := rfl

theorem exec_ldDt (s : State) (x : RegIdx) : exec (.ldDt x) s = .next (s.setDt (s.reg x)) := rfl

theorem exec_ldSt (s : State) (x : RegIdx) : exec (.ldSt x) s = .next (s.setSt (s.reg x)) := rfl

/-- The bell is on exactly while ST is not 0 (R114). -/
theorem bell_iff (s : State) : bell s = true ↔ s.st ≠ 0#8 := bne_iff_ne

/-- Settles O46: each word is its instruction's own, and each instruction one write. -/
theorem timerInstructionsMoveOneByte : Obligations.TimerInstructionsMoveOneByte := fun s x =>
  ⟨decodeWith_encode _ (.ldVxDt x), decodeWith_encode _ (.ldDt x), decodeWith_encode _ (.ldSt x),
    ⟨_, exec_ldVxDt s x, State.setReg_reg_self s x s.dt, changesOnly_setReg s x s.dt⟩,
    ⟨_, exec_ldDt s x, State.setDt_dt s _, changesOnly_setDt s _⟩,
    ⟨_, exec_ldSt s x, State.setSt_st s _, bell_iff _, changesOnly_setSt s _⟩⟩

/-! ## The countdown around the write (R93, R55) -/

/-- A step at an instruction that completes ends with the instruction's state, the AfterExecute countdown done. -/
theorem step_of_exec_next {s u : State} {i : Instr} (hn : s.fault = none) (hfetch : Fetchable s)
    (hd : s.decoded = .instr i) (hexec : exec i s.atExecute = .next u) : step s = .next u.endStep := by
  rw [step_of_instr hn hfetch hd, hexec, onNext]

/-- Settles O13: V[x] takes DT as the state before the instruction has it, and a timer written is counted only by the
countdown that comes after. -/
theorem timerPhaseDecidesWhatTimerInstructionsSee : Obligations.TimerPhaseDecidesWhatTimerInstructionsSee := by
  intro s x hn hfetch
  refine ⟨fun hd => ⟨_, step_of_exec_next hn hfetch hd (exec_ldVxDt ..), ?_⟩,
    fun hd => ⟨_, step_of_exec_next hn hfetch hd (exec_ldDt ..), ?_⟩,
    fun hd => ⟨_, step_of_exec_next hn hfetch hd (exec_ldSt ..), ?_⟩⟩
  · rw [State.endStep_reg, State.setReg_reg_self, State.atExecute_dt]
    exact countDown_and_decide_toNat ..
  · rw [State.endStep_dt, State.setDt_dt, State.atExecute_reg]
    exact countDown_and_decide_toNat ..
  · rw [State.endStep_st, State.setSt_st, State.atExecute_reg]
    exact countDown_and_decide_toNat ..

end Sys2Proof.Machine
end

section
/-! SUPPORT. Keypad instructions (spec/46_keypad.md): LD_K takes the latched key's code or goes back to its own word, and
SKP and SKNP are one test, the key test, and its negation. -/

namespace Sys2Proof.Machine

/-! ## Awaiting a key (R98) -/

/-- A step at LD_K with no key goes back to the instruction's own word: the 2 that it takes from PC are the fetch's. -/
theorem step_ldK_of_none {s : State} {x : RegIdx} (hn : s.fault = none) (hfetch : Fetchable s)
    (hd : s.decoded = .instr (.ldK x)) (hkey : s.nextInput.key = none) :
    step s = .next (s.atExecute.setPc s.pc).endStep := by
  have hexec := exec_ldK_of_none (s := s.atExecute) x hkey
  rw [State.atExecute_pc, BitVec.add_sub_cancel] at hexec
  exact step_of_exec_next hn hfetch hd hexec

/-- Settles O47, by whether a key is latched; the timers are counted at one of the step's two places. -/
theorem awaitKeyTakesTheKeyOrStaysPut : Obligations.AwaitKeyTakesTheKeyOrStaysPut := by
  intro s x
  refine ⟨decodeWith_encode _ (.ldK x), fun k hk => ⟨_, exec_ldK_of_key x hk, ?_, changesOnly_setReg s x _⟩,
    fun hk => ⟨_, exec_ldK_of_none x hk, State.setPc_pc s _, changesOnly_setPc s _⟩,
    fun hn hfetch hd hk => ⟨_, step_ldK_of_none hn hfetch hd hk, rfl, ?_, ?_⟩⟩
  · rw [State.setReg_reg_self, BitVec.toNat_setWidth_of_le (by decide)]
  · exact countDown_both_places s.nextInput.tick s.config s.dt
  · exact countDown_both_places s.nextInput.tick s.config s.st

/-! ## Skips on the key test (R97, R99, R100) -/

theorem State.skipIf_not_pc (s : State) (c : Bool) : (s.skipIf !c).pc = if c then s.pc else s.pc + 2#16 := by
  cases c <;> rfl

/-- Settles O49: each instruction is a skip on the key test or on its negation, and with no key latched the test is
false. -/
theorem skipsOnTheLatchedKey : Obligations.SkipsOnTheLatchedKey := by
  intro s x
  refine ⟨decodeWith_encode _ (.skp x), decodeWith_encode _ (.sknp x),
    ⟨s.skipIf (s.keyIs x), rfl, changesOnly_skipIf s _, fun k hk => ?_, fun hk => ?_⟩,
    ⟨s.skipIf (!s.keyIs x), rfl, changesOnly_skipIf s _, fun k hk => ?_, fun hk => ?_⟩⟩
  · exact if_congr (State.keyIs_some hk x) rfl rfl
  · rw [State.keyIs_none hk, State.skipIf_pc, if_neg Bool.false_ne_true]
  · rw [State.skipIf_not_pc]
    exact if_congr (State.keyIs_some hk x) rfl rfl
  · rw [State.keyIs_none hk, State.skipIf_not_pc, if_neg Bool.false_ne_true]

end Sys2Proof.Machine
end

section
/-! SUPPORT. Display (spec/47_display.md): clearing, and what one draw does to every pixel and to VF, read by the
loop-free `SpriteSets`. -/

namespace Sys2Proof.Machine

/-- Settles O50: the cleared framebuffer is shown, whatever was there. -/
theorem clearScreenZeroesEveryPixel : Obligations.ClearScreenZeroesEveryPixel :=
  ⟨decodeWith_encode _ .cls, fun s => ⟨s.show Framebuffer.clear, rfl, pixel_clear, rfl, changesOnly_show s _⟩⟩

/-! ## One draw (R102, R103) -/

/-- To toggle by a bit makes a difference exactly when the bit is 1. -/
theorem xor_ne_left_iff (a b : Bool) : (a ^^ b) ≠ a ↔ b = true := by
  revert a b
  decide

section Drawing
variable {s : State} {x y : RegIdx} {n : BitVec 4}

/-- A drawing changes exactly the pixels the sprite puts a bit on. -/
theorem drawing_pixel_ne_iff {row : Nat} (hrow : row < 32) (col : Nat) :
    (s.drawing x y n).1.pixel row col ≠ s.fb.pixel row col ↔ SpriteSets s x y n row col := by
  rw [(drawing_spec s x y n).1 row col hrow, ← spriteSets_iff s x y n hrow]
  exact xor_ne_left_iff ..

/-- It hits exactly when the sprite puts a bit on a set pixel. -/
theorem drawing_hit_iff_spriteSets : (s.drawing x y n).2 = true ↔
    ∃ row col, row < 32 ∧ col < 64 ∧ SpriteSets s x y n row col ∧ s.fb.pixel row col = true := by
  rw [(drawing_spec s x y n).2]
  refine exists₂_congr fun row col => and_congr_right fun hrow => and_congr_right fun _ => ?_
  rw [spriteSets_iff s x y n hrow, and_comm]

/-- The state a completed DRW leaves. -/
def State.draw (s : State) (x y : RegIdx) (n : BitVec 4) : State :=
  (s.show (s.drawing x y n).1).setReg vf (collisionFlag (s.drawing x y n).2)

theorem exec_drw_of_bytes (h : s.i.toNat + n.toNat ≤ 0x1000 ∨ n = 0x0#4) :
    exec (.drw x y n) s = .next (s.draw x y n) :=
  exec_drw_of_range s x y n (h.imp_right (congrArg BitVec.toNat))

theorem State.draw_pixel_ne_iff {row : Nat} (hrow : row < 32) (col : Nat) :
    (s.draw x y n).fb.pixel row col ≠ s.fb.pixel row col ↔ SpriteSets s x y n row col :=
  drawing_pixel_ne_iff hrow col

theorem State.draw_reg_vf : (s.draw x y n).reg vf = flagByte (s.drawing x y n).2 := State.setReg_reg_self ..

theorem State.draw_vf_eq_one_iff : (s.draw x y n).reg vf = 1#8 ↔
    ∃ row col, row < 32 ∧ col < 64 ∧ SpriteSets s x y n row col ∧ s.fb.pixel row col = true := by
  rw [State.draw_reg_vf, flagByte_eq_one_iff, drawing_hit_iff_spriteSets]

/-- VF after a draw is a flag. -/
theorem State.draw_vf_cases : (s.draw x y n).reg vf = 0#8 ∨ (s.draw x y n).reg vf = 1#8 := by
  rw [State.draw_reg_vf]
  cases (s.drawing x y n).2
  · exact .inl rfl
  · exact .inr rfl

theorem State.draw_reg_of_ne {r : RegIdx} (h : r ≠ vf) : (s.draw x y n).reg r = s.reg r :=
  State.setReg_reg_of_ne _ _ h

theorem changesOnly_draw : ChangesOnly s (s.draw x y n) [.framebuffer, .dirty, .reg vf] :=
  (changesOnly_show s _).trans (changesOnly_setReg _ vf _)

/-- After a draw whose position is not read from VF the sprite puts its bits on the same pixels (R103). -/
theorem spriteSets_draw_iff (hx : x ≠ vf) (hy : y ≠ vf) (row col : Nat) :
    SpriteSets (s.draw x y n) x y n row col ↔ SpriteSets s x y n row col := by
  rw [SpriteSets, State.draw_reg_of_ne hx, State.draw_reg_of_ne hy]
  rfl

end Drawing

/-- Settles O51: a pixel differs after the draw exactly where the sprite puts a bit, and VF is the hit. -/
theorem drawXorsExactlyTheSprite : Obligations.DrawXorsExactlyTheSprite := by
  refine fun s x y n => ⟨decodeWith_encode _ (.drw x y n), fun hbytes => ?_⟩
  refine ⟨_, exec_drw_of_bytes hbytes, fun row col hrow _ => ⟨fun hset => ?_, fun hclear => ?_⟩,
    State.draw_vf_eq_one_iff.mpr, fun hmiss => ?_, rfl, changesOnly_draw⟩
  · exact Bool.eq_not.mpr ((State.draw_pixel_ne_iff hrow col).mpr hset)
  · exact not_not.mp (mt (State.draw_pixel_ne_iff hrow col).mp hclear)
  · exact State.draw_vf_cases.resolve_right (mt State.draw_vf_eq_one_iff.mp hmiss)

/-- Settles O52: the range check comes before any drawing, so where the rows lie on the screen is not asked. -/
theorem drawChecksEverySpriteAddress : Obligations.DrawChecksEverySpriteAddress := fun s x y n hn hout =>
  exec_drw_out_of_range s x y n hout (Nat.pos_of_ne_zero fun h => hn (BitVec.eq_of_toNat_eq h))

/-! ## Two draws (95 W4) -/

/-- After two changes a bit differs exactly when one of the changes, and not the other, turned it. -/
theorem ne_iff_one_of_two_changes (a b c : Bool) : c ≠ a ↔ ¬(b ≠ a ↔ c ≠ b) := by
  revert a b c
  decide

/-- A pixel differs after two draws exactly when one of the two sprites, and not the other, puts a bit on it. -/
theorem State.draw_draw_pixel_ne_iff {s : State} {x y : RegIdx} {n : BitVec 4} {row : Nat} (hrow : row < 32)
    (col : Nat) : ((s.draw x y n).draw x y n).fb.pixel row col ≠ s.fb.pixel row col ↔
      ¬(SpriteSets s x y n row col ↔ SpriteSets (s.draw x y n) x y n row col) := by
  rw [← State.draw_pixel_ne_iff hrow col, ← State.draw_pixel_ne_iff hrow col]
  exact ne_iff_one_of_two_changes ..

/-- Settles O53: the second draw starts from the first one's state, with the same bytes; unless its position is read
from VF it is the same sprite, which meets a set pixel exactly where the first one set it. -/
theorem drawingTwiceRestoresTheFramebuffer : Obligations.DrawingTwiceRestoresTheFramebuffer := by
  intro s x y n hbytes
  refine ⟨s.draw x y n, (s.draw x y n).draw x y n, exec_drw_of_bytes hbytes, exec_drw_of_bytes hbytes,
    fun hx hy => ⟨fun row col hrow _ => ?_, ?_⟩,
    fun _ => ⟨State.draw_vf_cases, fun row col hrow _ => State.draw_draw_pixel_ne_iff hrow col⟩⟩
  · have hsame := spriteSets_draw_iff (s := s) (n := n) hx hy row col
    exact not_not.mp (mt (State.draw_draw_pixel_ne_iff hrow col).mp (not_not_intro hsame.symm))
  · rw [State.draw_vf_eq_one_iff]
    refine exists₂_congr fun row col => and_congr_right fun hrow => and_congr_right fun _ => ?_
    rw [spriteSets_draw_iff hx hy]
    refine and_congr_right fun hset => ?_
    rw [Bool.eq_not.mpr ((State.draw_pixel_ne_iff hrow col).mpr hset), Bool.not_eq_true']

end Sys2Proof.Machine
end

section
/-! SUPPORT. Faults, timers and the host (spec/60_exceptions.md): what each instruction that can fault was doing when it
did, the timers around a fetched word, and what one host operation does to the invariant and to the state. -/

namespace Sys2Proof.Machine

/-! ## The invariant through the host's operations (R43, R115, R117, R118) -/

/-- The invariant speaks of memory, the call stack, PC and the configuration only. -/
theorem Inv.congr {s t : State} (h : Inv s) (hmem : t.mem = s.mem) (hstack : t.stack = s.stack) (hpc : t.pc = s.pc)
    (hconfig : t.config = s.config) : Inv t where
  mem_wf := by rw [State.memWf, hmem, hconfig]; exact h.mem_wf
  stack_bounded := by rw [hstack, hconfig]; exact h.stack_bounded
  returns_in_memory := by rw [hstack]; exact h.returns_in_memory
  pc_bounded := by rw [hpc]; exact h.pc_bounded
  config_wf := by rw [hconfig]; exact h.config_wf

/-- A program load that is taken keeps memory canonical and leaves PC at 0x200. -/
theorem loadRom_keeps_inv {s t : State} {image : List Byte} (hinv : Inv s) (h : loadRom image s = .next t) : Inv t := by
  cases loadRom_next h
  exact { hinv with
    mem_wf := Memory.wf_placeBytes hinv.mem_wf Config.programBase image
    pc_bounded := show (BitVec.ofNat 16 Config.programBase).toNat ≤ 0x10FE by decide }

theorem transact_keeps_inv {rest s : State} (hinv : Inv s) (hrest : Inv { rest with config := s.config }) :
    Inv (transact rest s) := by
  rcases transact_cases rest s with ⟨_, _, e⟩ | ⟨t, h, e⟩ | ⟨_, _, e⟩ <;> rw [e]
  · exact hinv
  · exact everyStepKeepsTheInvariant s t hinv h
  · exact hrest.congr rfl rfl rfl rfl

/-- One host operation keeps the invariant, if the rest named for a step that faults meets it. -/
theorem hostOp_keeps_inv {s : State} (hinv : Inv s) (op : HostOp)
    (hrest : ∀ rest, op = .step rest → Inv { rest with config := s.config }) : Inv (hostOp s op) := by
  cases op with
  | step rest => exact transact_keeps_inv hinv (hrest rest rfl)
  | loadRom image =>
    cases h : loadRom image s with
    | next t => simpa [hostOp, h] using loadRom_keeps_inv hinv h
    | _ => simpa [hostOp, h] using hinv
  | readDisplay => exact hinv.congr rfl rfl rfl rfl
  | announce inp => exact hinv.congr rfl rfl rfl rfl

/-- Settles O16, by induction over the run; the configuration the rests are taken under stays the first state's. -/
theorem everyHostRunKeepsTheInvariant : Obligations.EveryHostRunKeepsTheInvariant := by
  intro s ops hinv hrest
  refine (hostRun_induction (P := fun t => Inv t ∧ t.config = s.config) ⟨hinv, rfl⟩ ?_).1
  rintro t ⟨htinv, htconfig⟩ op hop
  refine ⟨hostOp_keeps_inv htinv op fun rest hstep => ?_, (hostOp_keeps_config t op).trans htconfig⟩
  rw [htconfig]
  exact hrest rest (hstep ▸ hop)

/-! ## Faults (R104) -/

theorem fault_inj {f g : Fault} (h : (.fault f : Result) = .fault g) : g = f := by cases h; rfl

theorem exec_ret_fault {s : State} {f : Fault} (h : exec .ret s = .fault f) : f = .stackUnderflow ∧ s.stack = [] := by
  rcases List.eq_nil_or_concat' s.stack with hs | ⟨ws, w, hs⟩
  · exact ⟨fault_inj ((exec_ret_of_empty hs).symm.trans h), hs⟩
  · cases (exec_ret_of_concat hs).symm.trans h

theorem exec_call_fault {s : State} {a : Addr12} {f : Fault} (h : exec (.call a) s = .fault f) :
    f = .stackOverflow ∧ s.config.stackDepth ≤ s.stack.length := by
  rcases Nat.lt_or_ge s.stack.length s.config.stackDepth with hroom | hfull
  · cases (exec_call_of_room a hroom).symm.trans h
  · exact ⟨fault_inj ((exec_call_of_full a hfull).symm.trans h), hfull⟩

theorem exec_addI_fault {s : State} {x : RegIdx} {f : Fault} (h : exec (.addI x) s = .fault f) :
    f = .indexOverflow (s.i.toNat + (s.reg x).toNat) ∧ 0xFFFF < s.i.toNat + (s.reg x).toNat := by
  rcases Nat.lt_or_ge 0xFFFF (s.i.toNat + (s.reg x).toNat) with hov | hfits
  · exact ⟨fault_inj ((exec_addI_of_overflow hov).symm.trans h), hov⟩
  · cases (exec_addI_of_fits hfits).symm.trans h

theorem exec_drw_fault {s : State} {x y : RegIdx} {n : BitVec 4} {f : Fault} (h : exec (.drw x y n) s = .fault f) :
    f = .memoryOutOfRange (max s.i.toNat Config.memSize) := by
  by_cases hrange : s.i.toNat + n.toNat ≤ Config.memSize ∨ n.toNat = 0
  · cases (exec_drw_of_range s x y n hrange).symm.trans h
  · exact fault_inj ((exec_drw_out_of_range s x y n (by omega) (by omega)).symm.trans h)

/-- An instruction that stores a block at I faults only with the first address above 0xFFF. -/
theorem exec_store_fault {i : Instr} {s : State} {us : List Byte} {f : Fault}
    (hstore : exec i s = orRaise (s.storeBytes s.i.toNat us)) (hne : us ≠ []) (h : exec i s = .fault f) :
    f = .memoryOutOfRange (max s.i.toNat Config.memSize) := by
  rcases Nat.lt_or_ge Config.memSize (s.i.toNat + us.length) with hout | hfits
  · exact fault_inj ((exec_store_of_out_of_range hstore hne hout).symm.trans h)
  · obtain ⟨t, ht, _⟩ := exec_store_of_fits hstore hfits
    cases ht.symm.trans h

theorem exec_ldMemLoad_fault {s : State} {x : RegIdx} {f : Fault} (h : exec (.ldMemLoad x) s = .fault f) :
    f = .memoryOutOfRange (max s.i.toNat Config.memSize) := by
  rcases Nat.lt_or_ge (s.i.toNat + x.toNat) Config.memSize with hfits | hout
  · obtain ⟨t, ht, _⟩ := exec_ldMemLoad_of_fits hfits
    cases ht.symm.trans h
  · exact fault_inj ((exec_ldMemLoad_of_out_of_range hout).symm.trans h)

/-- Settles O11: the seven instructions that can fault, each with its fault; every other one completes. -/
theorem onlyTheSpecsFaultsAreRaised : Obligations.OnlyTheSpecsFaultsAreRaised := by
  refine fun i s => ⟨fun f h => ?_, exec_not_refused i s⟩
  cases i with
  | ret =>
    obtain ⟨rfl, hempty⟩ := exec_ret_fault h
    exact ⟨rfl, hempty⟩
  | call a =>
    obtain ⟨rfl, hfull⟩ := exec_call_fault h
    exact ⟨hfull, a, rfl⟩
  | addI x =>
    obtain ⟨rfl, hov⟩ := exec_addI_fault h
    exact ⟨hov, x, rfl, rfl⟩
  | drw x y n =>
    cases exec_drw_fault h
    exact ⟨rfl, .inl ⟨x, y, n, rfl⟩⟩
  | ldB x =>
    cases exec_store_fault (exec_ldB s x) (List.cons_ne_nil _ _) h
    exact ⟨rfl, .inr (.inl ⟨x, rfl⟩)⟩
  | ldMemStore x =>
    cases exec_store_fault (exec_ldMemStore s x) (by simp [regsUpTo_ne_nil]) h
    exact ⟨rfl, .inr (.inr (.inl ⟨x, rfl⟩))⟩
  | ldMemLoad x =>
    cases exec_ldMemLoad_fault h
    exact ⟨rfl, .inr (.inr (.inr ⟨x, rfl⟩))⟩
  | _ => cases h

/-! ## Timers (R112) -/

theorem delay_mem_parts {i : Instr} {s : State} (h : .delay ∈ Instr.parts i s) : ∃ x, i = .ldDt x := by
  cases i with
  | ldDt x => exact ⟨x, rfl⟩
  | _ => simp [Instr.parts, bytesFrom, regsTo] at h

theorem sound_mem_parts {i : Instr} {s : State} (h : .sound ∈ Instr.parts i s) : ∃ x, i = .ldSt x := by
  cases i with
  | ldSt x => exact ⟨x, rfl⟩
  | _ => simp [Instr.parts, bytesFrom, regsTo] at h

/-- What the word of a completed step did between the fetch and `State.endStep`: every part but REPORTS that no
instruction's frame names is as at the fetch. -/
theorem step_next_frame {s t : State} (h : step s = .next t) :
    ∃ u, t = u.endStep ∧ ∀ p : Part, p ≠ .reports →
      (∀ i, s.decoded = .instr i → p ∉ Instr.parts i s.atExecute) → p.same s.atExecute u := by
  rcases step_next_instr h with ⟨i, u, hd, hu, rfl⟩ | ⟨r, _, rfl⟩
  · exact ⟨u, rfl, fun p _ hparts => exec_changesOnly i hu p (hparts i hd)⟩
  · exact ⟨_, rfl, fun p hp _ => changesOnly_report _ _ p (by simpa using hp)⟩

/-- Settles O12: away from its own instruction a timer is as at the fetch when the word is done, and of the two places
of the timer update exactly one counts. -/
theorem everyStepCountsEachTimerAtMostOnce : Obligations.EveryStepCountsEachTimerAtMostOnce := by
  intro s t h
  obtain ⟨u, rfl, hkept⟩ := step_next_frame h
  have hlatch : u.latch = s.nextInput :=
    hkept .latch (by simp) fun i _ => not_mem_parts_of_mem_inputParts (by decide) i _
  have hconfig : u.config = s.config := hkept .config (by simp) fun i _ => config_not_mem_parts i _
  constructor
  · intro hno
    have hdt : u.dt = s.atExecute.dt := hkept .delay (by simp) fun i hd hmem => by
      obtain ⟨x, rfl⟩ := delay_mem_parts hmem
      exact hno x hd
    rw [State.endStep_dt, hlatch, hconfig, hdt, State.atExecute_dt]
    exact countDown_both_places ..
  · intro hno
    have hst : u.st = s.atExecute.st := hkept .sound (by simp) fun i hd hmem => by
      obtain ⟨x, rfl⟩ := sound_mem_parts hmem
      exact hno x hd
    rw [State.endStep_st, hlatch, hconfig, hst, State.atExecute_st]
    exact countDown_both_places ..

/-! ## ReadDisplay (R115) -/

/-- Row after row of `w` entries: entry c of row r stands at r * w + c. -/
theorem getElem?_flatMap_rows {α : Type} (g : Nat → Nat → α) (w : Nat) {m r c : Nat} (hr : r < m) (hc : c < w) :
    ((List.range m).flatMap fun row => (List.range w).map (g row))[r * w + c]? = some (g r c) := by
  induction m with
  | zero => omega
  | succ m ih =>
    have hlen : ((List.range m).flatMap fun row => (List.range w).map (g row)).length = m * w := by simp
    rw [List.range_succ, List.flatMap_append]
    by_cases hlast : r = m
    · subst hlast
      rw [List.getElem?_append_right (by omega), hlen, Nat.add_sub_cancel_left]
      simp [hc]
    · have hrow : r + 1 ≤ m := by omega
      have hbefore : (r + 1) * w ≤ m * w := Nat.mul_le_mul_right w hrow
      rw [Nat.succ_mul] at hbefore
      rw [List.getElem?_append_left (by omega)]
      exact ih hrow

/-- Settles O54: the pixels are 32 rows of 64 bytes, and DIRTY is the only part written. -/
theorem readDisplayReturnsThePixelsAndClearsDirty : Obligations.ReadDisplayReturnsThePixelsAndClearsDirty := by
  refine fun s => ⟨by simp [readDisplay, displayBytes], fun row col hrow hcol => ?_, rfl, rfl, fun p hp => ?_⟩
  · exact getElem?_flatMap_rows (pixelByte s.fb) 64 hrow hcol
  · cases p with
    | dirty => simp at hp
    | _ => rfl

/-! ## LoadRom (R117) -/

theorem loadRom_of_fits {s : State} {image : List Byte} (hn : s.fault = none) (hfits : image.length ≤ Config.romMax) :
    loadRom image s = .next (({ s with mem := placeBytes s.config.font s.mem Config.programBase image } : State).setPc
      (BitVec.ofNat 16 Config.programBase)) := by
  simp [loadRom, hn, romWf, hfits]

theorem loadRom_of_too_large {s : State} {image : List Byte} (hn : s.fault = none)
    (hlarge : Config.romMax < image.length) : loadRom image s = .refused (.romTooLarge image.length) := by
  simp [loadRom, hn, romWf, hlarge]

/-- Settles O55: an image of at most 3584 bytes ends inside memory, so each of its bytes is placed. -/
theorem loadRomPlacesTheImageAndResetsPc : Obligations.LoadRomPlacesTheImageAndResetsPc := by
  refine fun s image => ⟨fun hn hfits => ?_, loadRom_of_too_large, fun _ => loadRom_of_halted image⟩
  refine ⟨_, loadRom_of_fits hn hfits, rfl, fun hm k hk => ?_, ?_⟩
  · have hinside : 0x200 + image.length ≤ Config.memSize := Nat.add_le_add_left hfits 0x200
    refine (State.byteAt_placeBytes hm 0x200 image hinside _).trans ?_
    rw [if_pos (by omega), Nat.add_sub_cancel_left]
  · refine ((changesOnly_placeBytes s 0x200 image).trans (changesOnly_setPc _ _)).mono ?_
    simp

end Sys2Proof.Machine
end

section
/-! SUPPORT. Reset and hazards (spec/70_reset_and_hazards.md): a core that waits for a key. -/

namespace Sys2Proof.Machine

/-- Back at its own address an instruction has changed only what the step does around it (R124). -/
theorem changesOnly_back_at_pc (s : State) : ChangesOnly s (s.atExecute.setPc s.pc).endStep aroundParts := by
  intro p hp
  cases p with
  | latch | inputs | drawn | delay | sound => simp [aroundParts] at hp
  | _ => rfl

/-- Settles O48: LD_K takes PC back to its own word, and the timers are counted at one of the step's two places. -/
theorem waitingForAKeyChangesOnlyTimersAndInputs : Obligations.WaitingForAKeyChangesOnlyTimersAndInputs :=
  fun s _ hn hfetch hd hkey => ⟨_, step_ldK_of_none hn hfetch hd hkey, rfl, rfl, changesOnly_back_at_pc s,
    countDown_both_places s.nextInput.tick s.config s.dt, countDown_both_places s.nextInput.tick s.config s.st⟩

end Sys2Proof.Machine
end
